-- ==== Sys2Proof/Word.lean ====
section
/-! DEFINITION. The word types of the block (spec/00_scope.md R11, R12). -/

namespace Sys2Proof

/-- A byte, 8 bits: buffer bytes, opcodes, 8-bit registers and register addresses (R11). -/
abbrev Byte := BitVec 8

/-- A word of the host data path, 16 bits: command words, 16-bit registers, buffer indices (R11). -/
abbrev Word := BitVec 16

end Sys2Proof
end

