-- ==== Sys2Proof/Config.lean ====
section
/-! DEFINITION. The implementation parameters of a block (spec/00_scope.md R7 to R11) and the free values of the
model. What no rule fixes is an `opaque` constant with no body, so that no proof can rest on its value. -/

namespace Sys2Proof

/-- The parameters of one block, fixed for its life: configuration, not state of the block (10_state.md R30). -/
structure Params where
  /-- `P_MAXLEN`, the capacity of IBUF in bytes; `Params.wf` says its range (R7). -/
  maxLen : Nat
  /-- `P_STRICT_DIGITS` (R9; the spec's default is false). -/
  strictDigits : Bool
  /-- `P_ACK_ASCII_STRICT` (R10; the spec's default is true). -/
  ackAsciiStrict : Bool
  /-- `P_BASE`, where the port sits in a host's address map; no rule reads it (R11, 20_memory.md R86). -/
  base : Nat
deriving DecidableEq, Repr

/-- `OBUF_CAP`, the capacity of OBUF in bytes (R8). -/
def Params.obufCap (p : Params) : Nat := p.maxLen + 10

/-- The parameters at the spec's defaults, for a given `P_MAXLEN` (R9, R10, 92_eei_decisions.md "Open parameters"). -/
def Params.defaults (maxLen : Nat) : Params :=
  { maxLen := maxLen, strictDigits := false, ackAsciiStrict := true, base := 0 }

/-- How far `P_MAXLEN` lies above its least value 10; with `Fin 65516` it reaches 65525 and no more (R7). -/
opaque Config.maxLenAboveMin : Fin 65516

/-- `P_STRICT_DIGITS` of the block that `State.reset` describes (R9). -/
opaque Config.strictDigits : Bool

/-- `P_ACK_ASCII_STRICT` of the block that `State.reset` describes (R10). -/
opaque Config.ackAsciiStrict : Bool

/-- `P_BASE` of the block that `State.reset` describes (R11). -/
opaque Config.base : Nat

/-- The parameters of the block that `State.reset` describes: any the spec admits (R7, R9, R10, R11). -/
def Config.params : Params :=
  { maxLen := Config.maxLenAboveMin.val + 10
    strictDigits := Config.strictDigits
    ackAsciiStrict := Config.ackAsciiStrict
    base := Config.base }

/-- FREE VALUE: the byte that the n-th draw gives, where a host read meets a byte that holds no value
(70_reset_and_hazards.md R272, 93_implementation_defined.md U7). -/
opaque Config.freeByte : Nat → Byte

end Sys2Proof
end

