-- ==== Sys2Proof/Syntax.lean ====
section
/-! DEFINITION. The commands of the block, one constructor per row of spec/opcode_table.json (spec/30_encoding.md
R103). A command carries no operand field: its operands are registers and IBUF (R101, R102). -/

namespace Sys2Proof

/-- The five commands. -/
inductive Instr where
  /-- Encode a number as a digit pair (40_digit_pair.md R144). -/
  | dpenc
  /-- Decode a digit pair (40_digit_pair.md R145). -/
  | dpdec
  /-- Checksum of `IBUF[0..ILEN)` and its hex rendering (41_checksum.md R164). -/
  | cksum
  /-- Build a request frame (42_encoder.md R186). -/
  | build
  /-- Parse a response frame (43_decoder.md R216). -/
  | parse
deriving DecidableEq, Repr

end Sys2Proof
end

