-- ==== Sys2Proof/WellFormed.lean ====
section
/-! DEFINITION. What is well formed before a machine runs: the commands (they have no operand field, so each one
is) and the parameters of a block (spec/00_scope.md R7). -/

namespace Sys2Proof

/-- Every command is well formed: the format CMD has no field besides its opcode (30_encoding.md R101). -/
def Instr.wf : Instr → Bool
  | .dpenc => true
  | .dpdec => true
  | .cksum => true
  | .build => true
  | .parse => true

/-- `10 <= P_MAXLEN <= 65525` (00_scope.md R7); the other parameters take every value of their type. -/
def Params.wf (p : Params) : Bool := decide (10 ≤ p.maxLen) && decide (p.maxLen ≤ 65525)

end Sys2Proof
end

