-- ==== Sys2Proof/Decode.lean ====
section
/-! DEFINITION. The command word and its opcode (spec/30_encoding.md R101 to R105): decoder, total on every 16-bit
word, rejecting by name; then the encoder. -/

namespace Sys2Proof

/-- Why a word is no command: its opcode is illegal (R104). -/
inductive DecodeError where
  | illegalOpcode (opcode : Byte)
deriving DecidableEq, Repr

/-- The opcode field `d[7:0]` of a command word; `d[15:8]` is ignored (R101). -/
def opcodeField (d : Word) : Byte := d.extractLsb' 0 8

/-- The command a word selects, by all eight bits of its opcode (R103, R104, R105). -/
def decode (d : Word) : Except DecodeError Instr :=
  let opcode := opcodeField d
  if opcode = 0x01 then .ok .dpenc
  else if opcode = 0x02 then .ok .dpdec
  else if opcode = 0x03 then .ok .cksum
  else if opcode = 0x04 then .ok .build
  else if opcode = 0x05 then .ok .parse
  else .error (.illegalOpcode opcode)

/-- The opcode of a command (the table of R103). -/
def opcodeOf : Instr → Byte
  | .dpenc => 0x01
  | .dpdec => 0x02
  | .cksum => 0x03
  | .build => 0x04
  | .parse => 0x05

/-- The command word of a command: the opcode in bits 7:0 and 0 in bits 15:8 (R101). -/
def encode (i : Instr) : Word := (opcodeOf i).setWidth 16

/-- The 16-bit command word held in the low `nbits` bits of `w`; every higher bit of the word is 0. -/
def tableWord (nbits w : Nat) : Word := BitVec.ofNat 16 (w % 2 ^ nbits)

/-- The command the decoder reads from a word given as the opcode table gives it. -/
def decodeTableWord (nbits w : Nat) : Option Instr :=
  match decode (tableWord nbits w) with
  | .ok i => some i
  | .error _ => none

end Sys2Proof
end

