-- ==== Sys2Proof/Machine/State.lean ====
section
/-! DEFINITION. The state of the block as plain data (spec/10_state.md R30, R31, R47, R48), the events at its host
port, and the reasons a step can stop. -/

namespace Sys2Proof.Machine

/-- A transaction at the host port: the five kinds of 30_encoding.md R100 and no other. -/
inductive HostTransaction where
  /-- Read the register at address `a`. -/
  | rdreg (a : Byte)
  /-- Write `d` to the register at address `a`; at 0x00 this runs a command. -/
  | wrreg (a : Byte) (d : Word)
  /-- Read IBUF byte `i`. -/
  | rdib (i : Word)
  /-- Write IBUF byte `i`. -/
  | wrib (i : Word) (b : Byte)
  /-- Read OBUF byte `i`. -/
  | rdob (i : Word)
deriving DecidableEq, Repr

/-- What can reach the block from outside: a transaction of the host, or the external reset between two
transactions (70_reset_and_hazards.md R270). -/
inductive HostEvent where
  | transaction (t : HostTransaction)
  | reset
deriving DecidableEq, Repr

/-- A value a read transaction returned: 16 bits from a register, 8 bits from a buffer (R100). -/
inductive ReadData where
  | reg (v : Word)
  | byte (b : Byte)
deriving DecidableEq, Repr

/-- The result bank (10_state.md R45): the ten registers that every command overwrites. -/
structure ResultBank where
  /-- STATUS, address 0x08 (R36). -/
  status : Byte
  /-- FLAGS, address 0x09: bit 0 DIG, bit 1 CKP, bits 7:2 read 0 (R37). -/
  flags : Byte
  /-- OLEN, address 0x0A (R38). -/
  olen : Word
  /-- RES_KIND, address 0x0B (R39). -/
  resKind : Byte
  /-- RES_TID, address 0x0C (R40). -/
  resTid : Word
  /-- RES_PID, address 0x0D (R40). -/
  resPid : Word
  /-- RES_ADR, address 0x0E (R40). -/
  resAdr : Word
  /-- RES_VAL, address 0x0F (R41). -/
  resVal : Word
  /-- RES_CODE, address 0x10 (R42). -/
  resCode : Byte
  /-- RES_DESC, address 0x11 (R43). -/
  resDesc : Byte
deriving DecidableEq, Repr

/-- Every register of the result bank at 0: what `ClearResultBank()` leaves (00_scope.md R14) and what reset leaves
(70_reset_and_hazards.md R271). -/
def ResultBank.zero : ResultBank :=
  { status := 0, flags := 0, olen := 0, resKind := 0, resTid := 0, resPid := 0, resAdr := 0, resVal := 0
    resCode := 0, resDesc := 0 }

/-- The state of the machine. `cfg` is the block's configuration (no step changes it); `port`, `reads` and `draws`
are the model's own (notes/assumptions 1, 2, 4, 5); the rest is the spec's. -/
structure State where
  /-- ARG0, address 0x01 (10_state.md R32). -/
  arg0 : Byte
  /-- ARG1, address 0x02 (R32). -/
  arg1 : Byte
  /-- ARG2, address 0x03 (R32). -/
  arg2 : Byte
  /-- ILEN, address 0x04 (R35). -/
  ilen : Word
  /-- The result bank, addresses 0x08 to 0x11 (R36 to R43, R45). -/
  bank : ResultBank
  /-- IBUF: the bytes that hold a value, by index, indices rising; an index not listed holds no value (R47). -/
  ibuf : List Host.Cell
  /-- OBUF, in the same form (R48). -/
  obuf : List Host.Cell
  /-- The parameters of this block (R30). -/
  cfg : Params
  /-- The host events still to come, oldest first. -/
  port : List HostEvent
  /-- The values the read transactions returned, oldest first (70_reset_and_hazards.md R278). -/
  reads : List ReadData
  /-- How many free bytes have been drawn. -/
  draws : Nat
deriving DecidableEq, Repr

/-- Why a run stops with a fault. -/
inductive Fault where
  /-- Raised by CKSUM, BUILD and PARSE when they read an IBUF byte below ILEN that holds no value: the spec marks it
  as a fault of the run (70_reset_and_hazards.md R272, U6). Safe: the model stops where the result is not defined. -/
  | unwrittenInputByte
deriving DecidableEq, Repr

/-- Why an instruction is refused. -/
inductive Refusal where
  /-- Raised by an arm of `exec` whose instruction has no meaning yet; no arm of this model does. Safe: it stops. -/
  | notModelled (mnemonic : String)
deriving DecidableEq, Repr

/-- The machine right after reset (70_reset_and_hazards.md R271): every register 0, no buffer byte holds a value.
The parameters are any the spec admits (`Config.params`); no host event is pending. -/
def State.reset : State :=
  { arg0 := 0, arg1 := 0, arg2 := 0, ilen := 0, bank := ResultBank.zero, ibuf := [], obuf := []
    cfg := Config.params, port := [], reads := [], draws := 0 }

end Sys2Proof.Machine
end

