-- ==== Sys2Proof/Machine/Status.lean ====
section
/-! DEFINITION. The error codes of the block (spec/60_exceptions.md R240). -/

namespace Sys2Proof.Machine

/-- The twelve errors a command can raise (R240); OK is no error. -/
inductive ErrorCode where
  | tooShort
  | unknownSentinel
  | missingTerminator
  | tooShortForChecksum
  | checksumMismatch
  | invalidFieldRange
  | encodingError
  | malformedDigits
  | badNakPayload
  | nonAsciiPayload
  | badLength
  | illegalCommand
deriving DecidableEq, Repr

/-- The status code of success, OK (R240). -/
def statusOk : Byte := 0x00

/-- The status code of an error (R240). -/
def errorStatus : ErrorCode → Byte
  | .tooShort => 0x01
  | .unknownSentinel => 0x02
  | .missingTerminator => 0x03
  | .tooShortForChecksum => 0x04
  | .checksumMismatch => 0x05
  | .invalidFieldRange => 0x06
  | .encodingError => 0x07
  | .malformedDigits => 0x08
  | .badNakPayload => 0x09
  | .nonAsciiPayload => 0x0A
  | .badLength => 0x0B
  | .illegalCommand => 0x0C

end Sys2Proof.Machine
end

