-- ==== Sys2Proof/Machine/Ops.lean ====
section
/-! DEFINITION. The named operations over buffers and registers: one byte of a buffer and a sequence of bytes
(spec/20_memory.md R72, R73), field updates of the state, the register file (R71), clearing the result bank, the
error completion (spec/60_exceptions.md R241) and the success completion. The block has no trap and no return from
one (R251, R252): the error completion is all that an error does. -/

namespace Sys2Proof.Machine

/-- A buffer: the bytes that hold a value, by index. -/
abbrev Memory := List Host.Cell

/-- The byte at index `i`, or none where the byte holds no value (70_reset_and_hazards.md R271). This is the one
place that says what an unlisted index reads as. -/
def Memory.read : Memory → Nat → Option Byte
  | [], _ => none
  | (j, b) :: rest, i => if i = j then some b else Memory.read rest i

/-- Write one byte, keeping the indices rising (`MemWrite(space, i, 1, b)`, 00_scope.md R14). -/
def Memory.write : Memory → Nat → Byte → Memory
  | [], i, b => [(i, b)]
  | (j, c) :: rest, i, b =>
    if i < j then (i, b) :: (j, c) :: rest
    else if i = j then (i, b) :: rest
    else (j, c) :: Memory.write rest i b

/-- The `n` bytes from index `start` on, in index order, or none where one of them holds no value. -/
def Memory.readSeq (m : Memory) (start : Nat) : Nat → Option (List Byte)
  | 0 => some []
  | n + 1 =>
    match Memory.read m start, Memory.readSeq m (start + 1) n with
    | some b, some bs => some (b :: bs)
    | _, _ => none

/-- Write a sequence of bytes from index `start` on, in order. -/
def Memory.writeSeq (m : Memory) (start : Nat) : List Byte → Memory
  | [] => m
  | b :: bs => Memory.writeSeq (Memory.write m start b) (start + 1) bs

/-- The canonical form: indices strictly rising. An unlisted index holds no value, so no cell can equal it. -/
def Memory.wf (m : Memory) : Bool := decide (m.Pairwise fun x y => x.1 < y.1)

/-- Every listed index lies below the buffer's capacity. -/
def Memory.within (cap : Nat) (m : Memory) : Bool := m.all fun c => decide (c.1 < cap)

/-- The slice `bs[a..b)`, empty when `a >= b` (00_scope.md R13). -/
def slice (bs : List Byte) (a b : Nat) : List Byte := (bs.take b).drop a

/-- `bs[i]`; every use stands behind a check that `i < len(bs)` (00_scope.md R13). -/
def byteAt (bs : List Byte) (i : Nat) : Byte := bs.getD i 0

/-- `ARG0 <- b`. -/
def State.setArg0 (s : State) (b : Byte) : State := { s with arg0 := b }

/-- `ARG1 <- b`. -/
def State.setArg1 (s : State) (b : Byte) : State := { s with arg1 := b }

/-- `ARG2 <- b`. -/
def State.setArg2 (s : State) (b : Byte) : State := { s with arg2 := b }

/-- `ILEN <- w`. -/
def State.setIlen (s : State) (w : Word) : State := { s with ilen := w }

/-- Write the whole result bank. -/
def State.setBank (s : State) (r : ResultBank) : State := { s with bank := r }

/-- Replace IBUF. -/
def State.setIbuf (s : State) (m : Memory) : State := { s with ibuf := m }

/-- Replace OBUF. -/
def State.setObuf (s : State) (m : Memory) : State := { s with obuf := m }

/-- Replace the host events still to come. -/
def State.setPort (s : State) (es : List HostEvent) : State := { s with port := es }

/-- A read transaction returns `v` to the host. -/
def State.pushRead (s : State) (v : ReadData) : State := { s with reads := s.reads ++ [v] }

/-- One more free byte has been drawn. -/
def State.countDraw (s : State) : State := { s with draws := s.draws + 1 }

/-- `ClearResultBank()` (00_scope.md R14, 10_state.md R45). -/
def clearResultBank (s : State) : State := s.setBank ResultBank.zero

/-- The result bank an error leaves: every register 0 but STATUS (60_exceptions.md R241). -/
def errorBank (e : ErrorCode) : ResultBank := { ResultBank.zero with status := errorStatus e }

/-- `raise E`: the error completion (60_exceptions.md R241). No OBUF byte is written, and nothing else. -/
def raiseError (e : ErrorCode) (s : State) : State := (clearResultBank s).setBank (errorBank e)

/-- The result bank of a success that leaves `out` in OBUF: the named outputs `r`, OLEN the number of bytes
written (10_state.md R38) and STATUS OK (R36). -/
def successBank (r : ResultBank) (out : List Byte) : ResultBank :=
  { r with olen := BitVec.ofNat 16 out.length, status := statusOk }

/-- The success completion: the outputs `r` over a cleared bank, and the bytes `out` at OBUF indices from 0 on
(10_state.md R45, R46, R48). -/
def complete (r : ResultBank) (out : List Byte) (s : State) : State :=
  ((clearResultBank s).setBank (successBank r out)).setObuf (Memory.writeSeq s.obuf 0 out)

/-- How a command ends: with its outputs, or with the error it raised (00_scope.md R14, R15). -/
def finish (r : Except ErrorCode (ResultBank × List Byte)) (s : State) : State :=
  match r with
  | .ok (bank, out) => complete bank out s
  | .error e => raiseError e s

/-- The external reset (70_reset_and_hazards.md R270, R271): registers to 0, no buffer byte holds a value; the
parameters are not changed (R273). What the host still has to send and what it has seen are the host's. -/
def applyReset (s : State) : State :=
  { State.reset with cfg := s.cfg, port := s.port, reads := s.reads, draws := s.draws }

end Sys2Proof.Machine
end

