-- ==== Sys2Proof/Machine/Operands.lean ====
section
/-! DEFINITION. The operand forms of the commands (spec/30_encoding.md R102) and the register forms of numbers
(spec/00_scope.md R12). -/

namespace Sys2Proof.Machine

/-- `s16(v)`: the 16-bit two's-complement pattern of an integer (00_scope.md R12). -/
def s16 (v : Int) : Word := BitVec.ofInt 16 v

/-- `from_s16(w)`: the integer a 16-bit two's-complement pattern stands for (00_scope.md R12). -/
def fromS16 (w : Word) : Int := w.toInt

/-- `zext_16(b)` (00_scope.md R12). -/
def zext16 (b : Byte) : Word := b.setWidth 16

/-- `d[7:0]`, what an 8-bit register takes of a 16-bit write (20_memory.md R71). -/
def lowByte (d : Word) : Byte := d.extractLsb' 0 8

/-- An 8-bit operand register read as an unsigned integer of its width (30_encoding.md R102). -/
def unsignedOperand (b : Byte) : Int := b.toNat

/-- The input sequence `IBUF[0..ILEN)`, or none where one of its bytes holds no value (10_state.md R35). -/
def inputSequence (s : State) : Option (List Byte) := Memory.readSeq s.ibuf 0 s.ilen.toNat

/-- A command over the input sequence: BadLength comes first, before any IBUF byte or operand register is read
(60_exceptions.md R246); then the whole of `IBUF[0..ILEN)` is read, and a byte with no value is a fault of the run
(70_reset_and_hazards.md R272); then the command ends as `result` says. -/
def runOnInput (s : State) (result : List Byte → Except ErrorCode (ResultBank × List Byte)) :
    Host.Outcome State Fault Refusal :=
  if s.cfg.maxLen < s.ilen.toNat then .next (raiseError .badLength s)
  else
    match inputSequence s with
    | none => .fault .unwrittenInputByte
    | some bs => .next (finish (result bs) s)

end Sys2Proof.Machine
end

