-- ==== Sys2Proof/Machine/Flags.lean ====
section
/-! DEFINITION. Every flag computation of the block: FLAGS has the bits DIG and CKP (spec/10_state.md R37), from
the digit check (spec/40_digit_pair.md R142) and the checksum-presence decision. -/

namespace Sys2Proof.Machine

/-- `IsDigit(b)` (00_scope.md R17). -/
def isDigit (b : Byte) : Bool := decide (0x30 ≤ b.toNat) && decide (b.toNat ≤ 0x39)

/-- `DigitsValid(b0, b1)` (40_digit_pair.md R142). -/
def digitsValid (b0 b1 : Byte) : Bool := isDigit b0 && isDigit b1

/-- `IsAscii(b)` (00_scope.md R20). -/
def isAscii (b : Byte) : Bool := decide (b.toNat ≤ 0x7F)

/-- FLAGS with DIG in bit 0, CKP in bit 1 and 0 in bits 7:2 (10_state.md R37). -/
def flagsOf (dig ckp : Bool) : Byte := BitVec.ofNat 8 (dig.toNat + 2 * ckp.toNat)

end Sys2Proof.Machine
end

