-- ==== Sys2Proof/Machine/DigitPair.lean ====
section
/-! DEFINITION. The digit-pair codec (spec/40_digit_pair.md): its two pure functions and the commands DPENC and
DPDEC. -/

namespace Sys2Proof.Machine

/-- `DigitPairEncode(n)`: two ASCII digits, tens first, or InvalidFieldRange outside 0..99 (R140). -/
def digitPairEncode (n : Int) : Except ErrorCode (List Byte) :=
  if n < 0 ∨ 99 < n then .error .invalidFieldRange
  else .ok [BitVec.ofInt 8 (0x30 + n / 10), BitVec.ofInt 8 (0x30 + n % 10)]

/-- `DigitPairDecode(b0, b1)`, on unbounded integers, never an error (R141). -/
def digitPairDecode (b0 b1 : Byte) : Int := ((b0.toNat : Int) - 0x30) * 10 + ((b1.toNat : Int) - 0x30)

/-- What DPENC gives for the operand n (R144). -/
def dpencResult (n : Int) : Except ErrorCode (ResultBank × List Byte) :=
  match digitPairEncode n with
  | .error e => .error e
  | .ok r => .ok (ResultBank.zero, r)

/-- What DPDEC gives for the operands b0 and b1 (R145). -/
def dpdecResult (b0 b1 : Byte) : Except ErrorCode (ResultBank × List Byte) :=
  .ok ({ ResultBank.zero with
          resVal := s16 (digitPairDecode b0 b1)
          flags := flagsOf (digitsValid b0 b1) false }, [])

/-- DPENC (R144): n = ARG0. -/
def execDpenc (s : State) : Host.Outcome State Fault Refusal :=
  .next (finish (dpencResult (unsignedOperand s.arg0)) s)

/-- DPDEC (R145): b0 = ARG0, b1 = ARG1; P_STRICT_DIGITS does not apply. -/
def execDpdec (s : State) : Host.Outcome State Fault Refusal :=
  .next (finish (dpdecResult s.arg0 s.arg1) s)

end Sys2Proof.Machine
end

