-- ==== Sys2Proof/Machine/Checksum.lean ====
section
/-! DEFINITION. The checksum generator (spec/41_checksum.md): sum of bytes mod 256, its rendering as two uppercase
hex characters, and the command CKSUM. -/

namespace Sys2Proof.Machine

/-- The sum of the bytes as unsigned integers (R160). -/
def byteSum : List Byte → Nat
  | [] => 0
  | b :: bs => b.toNat + byteSum bs

/-- `Checksum(bs)`: the sum mod 256, one byte (R160). -/
def checksum (bs : List Byte) : Byte := BitVec.ofNat 8 (byteSum bs % 256)

/-- `HexDigit(v)` for `0 <= v <= 15`, uppercase (R161). -/
def hexDigit (v : Nat) : Byte := if v ≤ 9 then BitVec.ofNat 8 (0x30 + v) else BitVec.ofNat 8 (0x41 + (v - 10))

/-- `HexPair(c)`: the characters of the high and of the low nibble, in this order (R161, 20_memory.md R76). -/
def hexPair (c : Byte) : List Byte := [hexDigit (c.extractLsb' 4 4).toNat, hexDigit (c.extractLsb' 0 4).toNat]

/-- What CKSUM gives for the bytes it sums (R164). -/
def cksumResult (bs : List Byte) : Except ErrorCode (ResultBank × List Byte) :=
  .ok ({ ResultBank.zero with resVal := zext16 (checksum bs) }, hexPair (checksum bs))

/-- CKSUM (R164): the bytes `IBUF[0..ILEN)`, exactly as given. -/
def execCksum (s : State) : Host.Outcome State Fault Refusal := runOnInput s cksumResult

end Sys2Proof.Machine
end

