-- ==== Sys2Proof/Machine/Encoder.lean ====
section
/-! DEFINITION. The frame encoder (spec/42_encoder.md): `BuildRequest` and the command BUILD; the sentinel bytes
(spec/00_scope.md R16). -/

namespace Sys2Proof.Machine

/-- `STX` (00_scope.md R16). -/
def STX : Byte := 0x02

/-- `ACK` (00_scope.md R16). -/
def ACK : Byte := 0x06

/-- `NAK` (00_scope.md R16). -/
def NAK : Byte := 0x15

/-- `ETX` (00_scope.md R16). -/
def ETX : Byte := 0x03

/-- The three field digit pairs in the order tid, pid, adr, or InvalidFieldRange (R181 step 2, R182). -/
def encodeFields (tid pid adr : Int) : Except ErrorCode (List Byte) :=
  match digitPairEncode tid with
  | .error e => .error e
  | .ok t =>
    match digitPairEncode pid with
    | .error e => .error e
    | .ok p =>
      match digitPairEncode adr with
      | .error e => .error e
      | .ok a => .ok (t ++ p ++ a)

/-- The CRC field over a body: present only when `pid == 1` (R185, 30_encoding.md R109, R110). -/
def crcField (pid : Int) (body : List Byte) : List Byte := if pid = 1 then hexPair (checksum body) else []

/-- A frame: sentinel, body, the CRC field when `pid == 1`, ETX (30_encoding.md R106, R107). -/
def assembleFrame (sentinel : Byte) (pid : Int) (body : List Byte) : List Byte :=
  [sentinel] ++ body ++ crcField pid body ++ [ETX]

/-- `BuildRequest(tid, pid, adr, item)` (R181), InvalidFieldRange before EncodingError (R183). -/
def buildRequest (tid pid adr : Int) (item : List Byte) : Except ErrorCode (List Byte) :=
  match encodeFields tid pid adr with
  | .error e => .error e
  | .ok fields =>
    if item.all isAscii then .ok (assembleFrame STX pid (fields ++ item))
    else .error .encodingError

/-- What BUILD gives for its operands (R186). -/
def buildResult (tid pid adr : Int) (item : List Byte) : Except ErrorCode (ResultBank × List Byte) :=
  match buildRequest tid pid adr item with
  | .error e => .error e
  | .ok r =>
    .ok ({ ResultBank.zero with
            flags := flagsOf false (decide (pid = 1))
            resVal := if pid = 1 then zext16 (checksum (slice r 1 (r.length - 3))) else 0 }, r)

/-- BUILD (R186): tid = ARG0, pid = ARG1, adr = ARG2, item = `IBUF[0..ILEN)`. -/
def execBuild (s : State) : Host.Outcome State Fault Refusal :=
  runOnInput s (buildResult (unsignedOperand s.arg0) (unsignedOperand s.arg1) (unsignedOperand s.arg2))

end Sys2Proof.Machine
end

