-- ==== Sys2Proof/Machine/Decoder.lean ====
section
/-! DEFINITION. The frame decoder (spec/43_decoder.md): the NAK table, `ParseResponse` with its nine steps in the
spec's order, and the command PARSE. -/

namespace Sys2Proof.Machine

/-- The nine descriptions of a NAK error code (R213). -/
inductive NakDescription where
  | checksumFault
  | invalidDataType
  | unknownItemId
  | masterPortTimeout
  | tooManyReadItems
  | slavePortTimeout
  | writeValueOutOfRange
  | wrongMultiDropAddress
  | unknownErrorCode
deriving DecidableEq, Repr

/-- `NakDesc(code)`, by exact byte equality (R213); an unrecognised code is no error (60_exceptions.md R249). -/
def nakDesc (code : Byte) : NakDescription :=
  if code = 0x43 then .checksumFault
  else if code = 0x44 then .invalidDataType
  else if code = 0x49 then .unknownItemId
  else if code = 0x4D then .masterPortTimeout
  else if code = 0x4F then .tooManyReadItems
  else if code = 0x54 then .slavePortTimeout
  else if code = 0x56 then .writeValueOutOfRange
  else if code = 0x58 then .wrongMultiDropAddress
  else .unknownErrorCode

/-- The index of a description, what RES_DESC holds (R213, 10_state.md R43). -/
def nakDescIndex : NakDescription → Byte
  | .checksumFault => 1
  | .invalidDataType => 2
  | .unknownItemId => 3
  | .masterPortTimeout => 4
  | .tooManyReadItems => 5
  | .slavePortTimeout => 6
  | .writeValueOutOfRange => 7
  | .wrongMultiDropAddress => 8
  | .unknownErrorCode => 9

/-- The text of a description; it belongs to the index's row of the table, the block returns the index (R213,
10_state.md R43). -/
def nakDescText : NakDescription → String
  | .checksumFault => "Checksum fault"
  | .invalidDataType => "Invalid data type; expected a string-typed value"
  | .unknownItemId => "Unknown item ID"
  | .masterPortTimeout => "Timeout on the hub's master port"
  | .tooManyReadItems => "Too many read items"
  | .slavePortTimeout => "Timeout on the hub's slave port"
  | .writeValueOutOfRange => "Validation: write value out of range"
  | .wrongMultiDropAddress => "Internal: wrong multi-drop address"
  | .unknownErrorCode => "Unknown error code"

/-- The variable part of a decoded frame: the ACK value or the NAK code (R200). -/
inductive ResponseContent where
  | ack (value : List Byte)
  | nak (code : Byte) (description : NakDescription)
deriving DecidableEq, Repr

/-- A decoded response with the three derived values PARSE reports (R200). -/
structure Response where
  tid : Int
  pid : Int
  adr : Int
  content : ResponseContent
  /-- the checksum-presence decision -/
  ck : Bool
  /-- the checksum when `ck`, else 0 -/
  sum : Byte
  /-- whether all six field bytes are digits -/
  dig : Bool
deriving DecidableEq, Repr

/-- tid, from bytes 1 and 2 (R205). -/
def frameTid (f : List Byte) : Int := digitPairDecode (byteAt f 1) (byteAt f 2)

/-- pid, from bytes 3 and 4 (R205). -/
def framePid (f : List Byte) : Int := digitPairDecode (byteAt f 3) (byteAt f 4)

/-- adr, from bytes 5 and 6 (R205). -/
def frameAdr (f : List Byte) : Int := digitPairDecode (byteAt f 5) (byteAt f 6)

/-- Whether the six field bytes are all digits (R201, R206). -/
def frameDigits (f : List Byte) : Bool :=
  digitsValid (byteAt f 1) (byteAt f 2) && digitsValid (byteAt f 3) (byteAt f 4) && digitsValid (byteAt f 5) (byteAt f 6)

/-- Step 5, the checksum-presence decision: equality of the integer pid with 1 (R207, 90_conflicts.md C1). -/
def frameHasChecksum (f : List Byte) : Bool := decide (framePid f = 1)

/-- Step 7, the payload: from index 7 up to `L-3` with a checksum, up to `L-1` without (R209). -/
def framePayload (f : List Byte) : List Byte :=
  slice f 7 (if frameHasChecksum f then f.length - 3 else f.length - 1)

/-- Step 8, the checksum over `f[1 .. L-3)`, 0 where the frame carries none (R201, R210). -/
def frameChecksum (f : List Byte) : Byte :=
  if frameHasChecksum f then checksum (slice f 1 (f.length - 3)) else 0

/-- Step 8, the comparison of the rendered checksum with the frame's two CRC characters, byte by byte (R210). -/
def frameCrcMatches (f : List Byte) : Bool :=
  decide (hexPair (frameChecksum f) = [byteAt f (f.length - 3), byteAt f (f.length - 2)])

/-- Step 9: the variable part by the sentinel, with the payload-decode checks (R211, R212). -/
def responseContent (p : Params) (f : List Byte) : Except ErrorCode ResponseContent :=
  let payload := framePayload f
  if byteAt f 0 = ACK then
    if (payload.any fun b => !isAscii b) && p.ackAsciiStrict then .error .nonAsciiPayload
    else .ok (.ack payload)
  else
    match payload with
    | [code] => .ok (.nak code (nakDesc code))
    | _ => .error .badNakPayload

/-- `ParseResponse(f)`: every check is fatal, and they stand in the spec's order (R201, R214). -/
def parseResponse (p : Params) (f : List Byte) : Except ErrorCode Response :=
  if f.length < 8 then .error .tooShort
  else if byteAt f 0 ≠ ACK ∧ byteAt f 0 ≠ NAK then .error .unknownSentinel
  else if byteAt f (f.length - 1) ≠ ETX then .error .missingTerminator
  else if !frameDigits f && p.strictDigits then .error .malformedDigits
  else if frameHasChecksum f && decide (f.length < 10) then .error .tooShortForChecksum
  else if frameHasChecksum f && !frameCrcMatches f then .error .checksumMismatch
  else
    match responseContent p f with
    | .error e => .error e
    | .ok content =>
      .ok { tid := frameTid f, pid := framePid f, adr := frameAdr f, content := content
            ck := frameHasChecksum f, sum := frameChecksum f, dig := frameDigits f }

/-- The result registers every successful PARSE writes, whatever the sentinel (R216). -/
def responseBank (r : Response) : ResultBank :=
  { ResultBank.zero with
    resTid := s16 r.tid, resPid := s16 r.pid, resAdr := s16 r.adr
    flags := flagsOf r.dig r.ck
    resVal := if r.ck then zext16 r.sum else 0 }

/-- What PARSE gives for the frame f (R216): RES_KIND 1 and the value in OBUF for an Ack; RES_KIND 2, RES_CODE,
RES_DESC and the code byte in OBUF for a Nak. -/
def parseResult (p : Params) (f : List Byte) : Except ErrorCode (ResultBank × List Byte) :=
  match parseResponse p f with
  | .error e => .error e
  | .ok r =>
    match r.content with
    | .ack value => .ok ({ responseBank r with resKind := 1 }, value)
    | .nak code description =>
      .ok ({ responseBank r with resKind := 2, resCode := code, resDesc := nakDescIndex description }, [code])

/-- PARSE (R216): frame = `IBUF[0..ILEN)`. -/
def execParse (s : State) : Host.Outcome State Fault Refusal := runOnInput s (parseResult s.cfg)

end Sys2Proof.Machine
end

