-- ==== Sys2Proof/Machine/Dispatch.lean ====
section
/-! DEFINITION. One arm per command (spec/30_encoding.md R103). -/

namespace Sys2Proof.Machine

def exec (i : Instr) (s : State) : Host.Outcome State Fault Refusal :=
  match i with
  | .dpenc => Sys2Proof.Machine.execDpenc s
  | .dpdec => Sys2Proof.Machine.execDpdec s
  | .cksum => Sys2Proof.Machine.execCksum s
  | .build => Sys2Proof.Machine.execBuild s
  | .parse => Sys2Proof.Machine.execParse s

end Sys2Proof.Machine
end

