-- ==== Sys2Proof/Machine/Transactions.lean ====
section
/-! DEFINITION. What the host port does with each transaction (spec/20_memory.md R71 to R73, spec/10_state.md R31,
R34, R44), a command write and the external reset among them. -/

namespace Sys2Proof.Machine

/-- `RDREG(a)`: the register map of 10_state.md R31, 8-bit registers zero-extended; CMD and the reserved addresses
read 0x0000 (R34, R44, 20_memory.md R71). -/
def readRegister (a : Byte) (s : State) : Word :=
  match a.toNat with
  | 0x01 => zext16 s.arg0
  | 0x02 => zext16 s.arg1
  | 0x03 => zext16 s.arg2
  | 0x04 => s.ilen
  | 0x08 => zext16 s.bank.status
  | 0x09 => zext16 s.bank.flags
  | 0x0A => s.bank.olen
  | 0x0B => zext16 s.bank.resKind
  | 0x0C => s.bank.resTid
  | 0x0D => s.bank.resPid
  | 0x0E => s.bank.resAdr
  | 0x0F => s.bank.resVal
  | 0x10 => zext16 s.bank.resCode
  | 0x11 => zext16 s.bank.resDesc
  | _ => 0x0000

/-- A write to a register other than CMD: `d[7:0]` to an 8-bit one, all of d to ILEN, ignored at read-only and
reserved addresses (10_state.md R44, 20_memory.md R71). -/
def writeRegister (a : Byte) (d : Word) (s : State) : State :=
  match a.toNat with
  | 0x01 => s.setArg0 (lowByte d)
  | 0x02 => s.setArg1 (lowByte d)
  | 0x03 => s.setArg2 (lowByte d)
  | 0x04 => s.setIlen d
  | _ => s

/-- The command write `WRREG(0x00, d)`: it runs the command of `d[7:0]`, all of it, as one step (10_state.md R34,
20_memory.md R80); an illegal opcode gives the error completion with IllegalCommand (30_encoding.md R104). -/
def runCommandWord (d : Word) (s : State) : Host.Outcome State Fault Refusal :=
  match decode d with
  | .ok i => exec i s
  | .error (.illegalOpcode _) => .next (raiseError .illegalCommand s)

/-- A host read of one buffer byte: the byte, 0x00 outside the buffer (20_memory.md R72, R73), and any byte where
the byte holds no value (70_reset_and_hazards.md R272). -/
def readBufferByte (m : Memory) (cap i : Nat) (s : State) : State :=
  if i < cap then
    match Memory.read m i with
    | some b => s.pushRead (.byte b)
    | none => (s.pushRead (.byte (Config.freeByte s.draws))).countDraw
  else s.pushRead (.byte 0x00)

/-- `WRIB(i, b)`: ignored outside the buffer (20_memory.md R72). -/
def writeInputByte (i : Nat) (b : Byte) (s : State) : State :=
  if i < s.cfg.maxLen then s.setIbuf (Memory.write s.ibuf i b) else s

/-- One host transaction (30_encoding.md R100). -/
def transact (t : HostTransaction) (s : State) : Host.Outcome State Fault Refusal :=
  match t with
  | .rdreg a => .next (s.pushRead (.reg (readRegister a s)))
  | .wrreg a d => if a = 0x00 then runCommandWord d s else .next (writeRegister a d s)
  | .rdib i => .next (readBufferByte s.ibuf s.cfg.maxLen i.toNat s)
  | .wrib i b => .next (writeInputByte i.toNat b s)
  | .rdob i => .next (readBufferByte s.obuf s.cfg.obufCap i.toNat s)

/-- One event from outside: a transaction, or the external reset (70_reset_and_hazards.md R270). -/
def handleEvent (e : HostEvent) (s : State) : Host.Outcome State Fault Refusal :=
  match e with
  | .transaction t => transact t s
  | .reset => .next (applyReset s)

end Sys2Proof.Machine
end

