-- ==== Sys2Proof/Machine/Step.lean ====
section
/-! DEFINITION. One step of the machine: the next host event takes effect, in the order the host issued it
(spec/20_memory.md R80, R81). -/

namespace Sys2Proof.Machine

/-- One step. The block fetches nothing (10_state.md R33): the next host event is taken from the port. With none
pending the block does nothing (notes/assumptions/3.md). -/
def step (s : State) : Host.Outcome State Fault Refusal :=
  match s.port with
  | [] => .next s
  | e :: rest => handleEvent e (s.setPort rest)

/-- `s` with the command write `WRREG(0x00, word)` as its very next host event, the word being the table's
(10_state.md R34); everything else is as it was. -/
def State.withFetchWord (s : State) (nbits w : Nat) : State :=
  s.setPort (.transaction (.wrreg 0x00 (tableWord nbits w)) :: s.port)

end Sys2Proof.Machine
end

