-- ==== Sys2Proof/Machine/Assembler.lean ====
section
/-! DEFINITION. The notation of host programs (spec/30_encoding.md R113, R114): register names, the
pseudo-instructions with their expansions, and a reader of source lines. No step of the machine uses it: it says
which transactions a line stands for. What R113 and R114 leave open of it is settled in notes/assumptions/14.md
(DESIGN CHOICE). -/

namespace Sys2Proof.Machine

/-- The address of a register by its name (10_state.md R31). -/
def registerAddress (name : String) : Option Byte :=
  if name = "CMD" then some 0x00
  else if name = "ARG0" then some 0x01
  else if name = "ARG1" then some 0x02
  else if name = "ARG2" then some 0x03
  else if name = "ILEN" then some 0x04
  else if name = "STATUS" then some 0x08
  else if name = "FLAGS" then some 0x09
  else if name = "OLEN" then some 0x0A
  else if name = "RES_KIND" then some 0x0B
  else if name = "RES_TID" then some 0x0C
  else if name = "RES_PID" then some 0x0D
  else if name = "RES_ADR" then some 0x0E
  else if name = "RES_VAL" then some 0x0F
  else if name = "RES_CODE" then some 0x10
  else if name = "RES_DESC" then some 0x11
  else none

/-- The pseudo-instructions (R114). -/
inductive Pseudo where
  | load (bytes : List Byte)
  | dpenc (n : Word)
  | dpdec (b0 b1 : Word)
  | cksum
  | build (tid pid adr : Word)
  | parse
deriving DecidableEq, Repr

/-- The transaction a command's mnemonic names: `wrreg CMD, <opcode>` (R114). -/
def commandWrite (i : Instr) : HostTransaction := .wrreg 0x00 (encode i)

/-- `wrib k, b` for each byte, from index `k` on (R114, `load`). -/
def loadBytes (k : Nat) : List Byte → List HostTransaction
  | [] => []
  | b :: bs => .wrib (BitVec.ofNat 16 k) b :: loadBytes (k + 1) bs

/-- The expansion of a pseudo-instruction, in order (R114). -/
def expandPseudo : Pseudo → List HostTransaction
  | .load bytes => .wrreg 0x04 (BitVec.ofNat 16 bytes.length) :: loadBytes 0 bytes
  | .dpenc n => [.wrreg 0x01 n, commandWrite .dpenc]
  | .dpdec b0 b1 => [.wrreg 0x01 b0, .wrreg 0x02 b1, commandWrite .dpdec]
  | .cksum => [commandWrite .cksum]
  | .build tid pid adr => [.wrreg 0x01 tid, .wrreg 0x02 pid, .wrreg 0x03 adr, commandWrite .build]
  | .parse => [commandWrite .parse]

/-- A token of a source line. -/
inductive Token where
  | word (text : String)
  | text (chars : List Char)
  | comma
  | lbrack
  | rbrack
deriving DecidableEq, Repr

/-- The word read so far (its characters in reverse) as a token, or nothing where it is empty. -/
def flushWord : List Char → List Token
  | [] => []
  | acc => [.word (String.ofList acc.reverse)]

/-- The tokens of a line; `;` starts a comment, `"..."` is a string literal (R113). `quoted` says whether the
reader stands inside a literal; a literal that does not end is rejected. -/
def tokenize (quoted : Bool) (acc : List Char) : List Char → Option (List Token)
  | [] => if quoted then none else some (flushWord acc)
  | c :: cs =>
    if quoted then
      if c = '"' then (tokenize false [] cs).map (fun ts => Token.text acc.reverse :: ts)
      else tokenize true (c :: acc) cs
    else if c = ';' then some (flushWord acc)
    else if c = '"' then (tokenize true [] cs).map (fun ts => flushWord acc ++ ts)
    else if c = ',' then (tokenize false [] cs).map (fun ts => flushWord acc ++ Token.comma :: ts)
    else if c = '[' then (tokenize false [] cs).map (fun ts => flushWord acc ++ Token.lbrack :: ts)
    else if c = ']' then (tokenize false [] cs).map (fun ts => flushWord acc ++ Token.rbrack :: ts)
    else if c = ' ' ∨ c = '\t' then (tokenize false [] cs).map (fun ts => flushWord acc ++ ts)
    else tokenize false (c :: acc) cs

/-- The value of a digit character in a base up to 16. -/
def digitValue (base : Nat) (c : Char) : Option Nat :=
  let n := c.toNat
  let v := if 0x30 ≤ n ∧ n ≤ 0x39 then n - 0x30
    else if 0x41 ≤ n ∧ n ≤ 0x46 then n - 0x41 + 10
    else if 0x61 ≤ n ∧ n ≤ 0x66 then n - 0x61 + 10
    else base
  if v < base then some v else none

/-- The value of a string of digits, most significant first. -/
def digitsValue (base : Nat) (acc : Nat) : List Char → Option Nat
  | [] => some acc
  | c :: cs =>
    match digitValue base c with
    | some v => digitsValue base (acc * base + v) cs
    | none => none

/-- A numeral, decimal or `0x` hexadecimal (R113). -/
def numeral (text : String) : Option Nat :=
  match text.toList with
  | [] => none
  | ['0', 'x'] => none
  | '0' :: 'x' :: digits => digitsValue 16 0 digits
  | digits => digitsValue 10 0 digits

/-- A numeral in 0..0xFFFF (R113, `<imm>` of wrreg and `<idx>`). -/
def wordNumeral (text : String) : Option Word :=
  match numeral text with
  | some n => if n ≤ 0xFFFF then some (BitVec.ofNat 16 n) else none
  | none => none

/-- A numeral in 0..0xFF (R113, `<imm>` of wrib). -/
def byteNumeral (text : String) : Option Byte :=
  match numeral text with
  | some n => if n ≤ 0xFF then some (BitVec.ofNat 8 n) else none
  | none => none

/-- `<reg>`: a register name or its address (R113). DESIGN CHOICE (notes/assumptions/14.md): every numeral 0..0xFF is
taken as an address, a reserved one too, since RDREG and WRREG take any 8-bit address (R100, 10_state.md R44). -/
def registerOperand (text : String) : Option Byte :=
  match registerAddress text with
  | some a => some a
  | none => byteNumeral text

/-- The ASCII codes of a literal's characters; a character beyond ASCII has none (R113, 00_scope.md R13). -/
def asciiCodes : List Char → Option (List Byte)
  | [] => some []
  | c :: cs =>
    match asciiCodes cs with
    | some bs => if c.toNat ≤ 0x7F then some (BitVec.ofNat 8 c.toNat :: bs) else none
    | none => none

/-- The bytes of a bracketed list after its opening bracket: numerals with commas between them (R114). -/
def bracketBytes : List Token → Option (List Byte)
  | [.rbrack] => some []
  | [.word t, .rbrack] => (byteNumeral t).map fun b => [b]
  | .word t :: .comma :: rest =>
    match byteNumeral t, bracketBytes rest with
    | some b, some (c :: cs) => some (b :: c :: cs)
    | _, _ => none
  | _ => none

/-- `load` of bytes that a 16-bit length can count. -/
def loadOf (bytes : Option (List Byte)) : Option (List HostTransaction) :=
  match bytes with
  | some bs => if bs.length ≤ 0xFFFF then some (expandPseudo (.load bs)) else none
  | none => none

/-- The command whose mnemonic stands alone on a line (R114). -/
def mnemonicCommand (name : String) : Option Instr :=
  if name = "DPENC" then some .dpenc
  else if name = "DPDEC" then some .dpdec
  else if name = "CKSUM" then some .cksum
  else if name = "BUILD" then some .build
  else if name = "PARSE" then some .parse
  else none

/-- A line of one word: `cksum`, `parse` or a command mnemonic (R114). -/
def assembleWord (w : String) : Option (List HostTransaction) :=
  if w = "cksum" then some (expandPseudo .cksum)
  else if w = "parse" then some (expandPseudo .parse)
  else (mnemonicCommand w).map fun i => [commandWrite i]

/-- A line of a word and one operand: `rdreg`, `rdib`, `rdob` (R113) or `dpenc` (R114). -/
def assembleUnary (w x : String) : Option (List HostTransaction) :=
  if w = "rdreg" then (registerOperand x).map fun a => [.rdreg a]
  else if w = "rdib" then (wordNumeral x).map fun i => [.rdib i]
  else if w = "rdob" then (wordNumeral x).map fun i => [.rdob i]
  else if w = "dpenc" then (wordNumeral x).map fun n => expandPseudo (.dpenc n)
  else none

/-- A line of a word and two operands: `wrreg`, `wrib` (R113) or `dpdec` (R114). -/
def assembleBinary (w x y : String) : Option (List HostTransaction) :=
  if w = "wrreg" then
    match registerOperand x, wordNumeral y with
    | some a, some d => some [.wrreg a d]
    | _, _ => none
  else if w = "wrib" then
    match wordNumeral x, byteNumeral y with
    | some i, some b => some [.wrib i b]
    | _, _ => none
  else if w = "dpdec" then
    match wordNumeral x, wordNumeral y with
    | some b0, some b1 => some (expandPseudo (.dpdec b0 b1))
    | _, _ => none
  else none

/-- The transactions of a tokenized line. -/
def assembleTokens : List Token → Option (List HostTransaction)
  | [] => some []
  | [.word w] => assembleWord w
  | [.word w, .word x] => assembleUnary w x
  | [.word w, .word x, .comma, .word y] => assembleBinary w x y
  | [.word w, .word x, .comma, .word y, .comma, .word z] =>
    if w = "build" then
      match wordNumeral x, wordNumeral y, wordNumeral z with
      | some tid, some pid, some adr => some (expandPseudo (.build tid pid adr))
      | _, _, _ => none
    else none
  | [.word w, .text cs] => if w = "load" then loadOf (asciiCodes cs) else none
  | .word w :: .lbrack :: rest => if w = "load" then loadOf (bracketBytes rest) else none
  | _ => none

/-- The transactions one source line stands for, none where it is no line of the notation (R113, R114). -/
def assembleLine (line : String) : Option (List HostTransaction) :=
  match tokenize false [] line.toList with
  | some ts => assembleTokens ts
  | none => none

/-- The transactions of a host program, line by line (R113). -/
def assemble : List String → Option (List HostTransaction)
  | [] => some []
  | line :: rest =>
    match assembleLine line, assemble rest with
    | some ts, some us => some (ts ++ us)
    | _, _ => none

end Sys2Proof.Machine
end

