-- ==== Sys2Proof/Safety.lean ====
section
/-! DEFINITION. What a good state and a safe run are, in the terms the statements use: the invariant of the machine,
the boot duty of the host (spec/70_reset_and_hazards.md R274), what a command leaves alone (spec/10_state.md R46),
runs and what they show (R278), and the spec's tables and formats in a form of their own: the register map, the
frame formats and the order of PARSE's checks. -/

namespace Sys2Proof

open Sys2Proof.Machine

/-- IBUF byte `i`, none where it holds no value. -/
def ibufByte (s : State) (i : Nat) : Option Byte := Memory.read s.ibuf i

/-- OBUF byte `i`, none where it holds no value. -/
def obufByte (s : State) (i : Nat) : Option Byte := Memory.read s.obuf i

/-- The bytes `bs` stand in IBUF at indices 0 to `len(bs)-1`. -/
abbrev IbufHolds (s : State) (bs : List Byte) : Prop := ∀ i, i < bs.length → ibufByte s i = bs[i]?

/-- The bytes `bs` stand in OBUF at indices 0 to `len(bs)-1`. -/
abbrev ObufHolds (s : State) (bs : List Byte) : Prop := ∀ i, i < bs.length → obufByte s i = bs[i]?

/-- `bs` is the input sequence `IBUF[0..ILEN)` of `s`: every one of its bytes holds a value and it fits IBUF
(10_state.md R35, 70_reset_and_hazards.md R274, 60_exceptions.md R246). -/
abbrev InputIs (s : State) (bs : List Byte) : Prop :=
  s.ilen.toNat = bs.length ∧ bs.length ≤ s.cfg.maxLen ∧ IbufHolds s bs

/-- The boot duty: every byte of `IBUF[0..ILEN)` was written (70_reset_and_hazards.md R274), or ILEN exceeds
P_MAXLEN and no byte is read (60_exceptions.md R246). -/
abbrev InputReady (s : State) : Prop :=
  s.cfg.maxLen < s.ilen.toNat ∨ ∀ i, i < s.ilen.toNat → (ibufByte s i).isSome = true

/-- What no command writes (10_state.md R46), and the model's own fields, are the same in both states. -/
abbrev SameInputs (s t : State) : Prop :=
  t.arg0 = s.arg0 ∧ t.arg1 = s.arg1 ∧ t.arg2 = s.arg2 ∧ t.ilen = s.ilen ∧ t.ibuf = s.ibuf ∧ t.cfg = s.cfg ∧
  t.port = s.port ∧ t.reads = s.reads ∧ t.draws = s.draws

/-- The frame of a command that stores at OBUF indices 0 to `n-1` (10_state.md R46, R48): what no command writes is
unchanged, and so is every OBUF byte at or above `n`. -/
def CommandFrame (s t : State) (n : Nat) : Prop :=
  SameInputs s t ∧ ∀ i, n ≤ i → obufByte t i = obufByte s i

/-- The state after an error with status `code`: the whole record is STATUS (60_exceptions.md R241). -/
def ErrorCompletion (s t : State) (code : Byte) : Prop :=
  t.bank = { ResultBank.zero with status := code } ∧ CommandFrame s t 0

/-- The values a result bank can hold (10_state.md R37, R39, R40, R43; 60_exceptions.md R240, R241): no reserved
FLAGS bit, no unused STATUS, RES_KIND or RES_DESC value, decoded fields in the range of the formula, nothing but
zeros beside an error status, and the field, code and description registers 0 unless a PARSE set RES_KIND. -/
def ResultBankSound (r : ResultBank) : Prop :=
  r.flags.toNat ≤ 3 ∧ r.status.toNat ≤ 0x0C ∧ r.resKind.toNat ≤ 2 ∧ r.resDesc.toNat ≤ 9 ∧
  (-528 ≤ fromS16 r.resTid ∧ fromS16 r.resTid ≤ 2277) ∧
  (-528 ≤ fromS16 r.resPid ∧ fromS16 r.resPid ≤ 2277) ∧
  (-528 ≤ fromS16 r.resAdr ∧ fromS16 r.resAdr ≤ 2277) ∧
  (r.status ≠ 0 → r = { ResultBank.zero with status := r.status }) ∧
  (r.resKind = 0 → r.resTid = 0 ∧ r.resPid = 0 ∧ r.resAdr = 0) ∧
  (r.resKind ≠ 2 → r.resCode = 0 ∧ r.resDesc = 0) ∧
  (r.resKind = 2 → r.olen = 1 ∧ 1 ≤ r.resDesc.toNat)

/-- The invariant of the machine: the parameters are in range (00_scope.md R7), both buffers are in canonical form
with every index inside the buffer (10_state.md R47, R48), the result bank is sound, and `OBUF[0..OLEN)` lies in
OBUF and every byte of it holds a value (10_state.md R38, 20_memory.md R73). -/
def StateInv (s : State) : Prop :=
  s.cfg.wf = true ∧
  Memory.wf s.ibuf = true ∧ Memory.within s.cfg.maxLen s.ibuf = true ∧
  Memory.wf s.obuf = true ∧ Memory.within s.cfg.obufCap s.obuf = true ∧
  ResultBankSound s.bank ∧
  s.bank.olen.toNat ≤ s.cfg.obufCap ∧
  ∀ i, i < s.bank.olen.toNat → (obufByte s i).isSome = true

/-- A step that does not stop; a safe run takes only such steps. -/
def StepsOn (s : State) : Prop := ∃ t, step s = .next t

/-- `k` steps that do not stop lead from `s` to `t`. -/
def Steps : Nat → State → State → Prop
  | 0, s, t => t = s
  | k + 1, s, t => ∃ u, step s = .next u ∧ Steps k u t

/-- What a run shows at its end (70_reset_and_hazards.md R278): the values its reads returned, the register file
and `OBUF[0..OLEN)`. -/
structure Observation where
  reads : List ReadData
  arg0 : Byte
  arg1 : Byte
  arg2 : Byte
  ilen : Word
  bank : ResultBank
  out : Option (List Byte)
deriving DecidableEq, Repr

/-- The observation of a state (70_reset_and_hazards.md R278). -/
def observe (s : State) : Observation :=
  { reads := s.reads, arg0 := s.arg0, arg1 := s.arg1, arg2 := s.arg2, ilen := s.ilen, bank := s.bank
    out := Memory.readSeq s.obuf 0 s.bank.olen.toNat }

/-- The register map (10_state.md R31) as a table: the value of each readable register by its address. CMD and the
reserved addresses have no entry. -/
def registerTable (s : State) : List (Nat × Nat) :=
  [(0x01, s.arg0.toNat), (0x02, s.arg1.toNat), (0x03, s.arg2.toNat), (0x04, s.ilen.toNat),
   (0x08, s.bank.status.toNat), (0x09, s.bank.flags.toNat), (0x0A, s.bank.olen.toNat), (0x0B, s.bank.resKind.toNat),
   (0x0C, s.bank.resTid.toNat), (0x0D, s.bank.resPid.toNat), (0x0E, s.bank.resAdr.toNat), (0x0F, s.bank.resVal.toNat),
   (0x10, s.bank.resCode.toNat), (0x11, s.bank.resDesc.toNat)]

/-- The next event is the transaction `x`, and `rest` follows it. -/
abbrev NextIs (s : State) (x : HostTransaction) (rest : List HostEvent) : Prop := s.port = .transaction x :: rest

/-- Two ASCII digits, tens first (20_memory.md R75). -/
def twoDigits (n : Nat) : List Byte := [BitVec.ofNat 8 (0x30 + n / 10), BitVec.ofNat 8 (0x30 + n % 10)]

/-- The bytes between the sentinel and the CRC field of a frame with decimal fields (30_encoding.md R106, R107). -/
def frameBody (tid pid adr : Nat) (tail : List Byte) : List Byte :=
  twoDigits tid ++ twoDigits pid ++ twoDigits adr ++ tail

/-- A frame around a body, with the CRC field when `crc` (30_encoding.md R106, R107, R110). -/
def frameOf (sentinel : Byte) (body : List Byte) (crc : Bool) : List Byte :=
  [sentinel] ++ body ++ (if crc then hexPair (checksum body) else []) ++ [0x03]

/-- The FLAGS byte of two bits (10_state.md R37): DIG counts 1, CKP counts 2. -/
def flagBits (dig ckp : Bool) : Byte := (if dig then 0x01 else 0x00) ||| (if ckp then 0x02 else 0x00)

/-- The result bank of a successful PARSE up to RES_KIND, RES_CODE and RES_DESC (43_decoder.md R216): six field
bytes, the checksum region, the number of bytes left in OBUF. -/
def parsedBank (b1 b2 b3 b4 b5 b6 : Byte) (region : List Byte) (n : Nat) : ResultBank :=
  let ck := decide (digitPairDecode b3 b4 = 1)
  { ResultBank.zero with
    olen := BitVec.ofNat 16 n
    resTid := s16 (digitPairDecode b1 b2), resPid := s16 (digitPairDecode b3 b4), resAdr := s16 (digitPairDecode b5 b6)
    flags := flagBits ([b1, b2, b3, b4, b5, b6].all isDigit) ck
    resVal := if ck then zext16 (checksum region) else 0 }

/-- The checks of PARSE behind BadLength, in the order of 60_exceptions.md R248: whether each fails, and its
status code. -/
def responseChecks (p : Params) (f : List Byte) : List (Bool × Byte) :=
  let len := f.length
  let ck := decide (digitPairDecode (byteAt f 3) (byteAt f 4) = 1)
  let payload := slice f 7 (if ck then len - 3 else len - 1)
  [(decide (len < 8), 0x01),
   (decide (byteAt f 0 ≠ 0x06 ∧ byteAt f 0 ≠ 0x15), 0x02),
   (decide (byteAt f (len - 1) ≠ 0x03), 0x03),
   (p.strictDigits && (slice f 1 7).any (fun b => !isDigit b), 0x08),
   (ck && decide (len < 10), 0x04),
   (ck && decide (hexPair (checksum (slice f 1 (len - 3))) ≠ slice f (len - 3) (len - 1)), 0x05),
   (decide (byteAt f 0 = 0x06) && p.ackAsciiStrict && payload.any (fun b => decide (0x7F < b.toNat)), 0x0A),
   (decide (byteAt f 0 = 0x15) && decide (payload.length ≠ 1), 0x09)]

/-- The status the first failing check gives, OK where none fails (60_exceptions.md R243). -/
def firstFailure : List (Bool × Byte) → Byte
  | [] => 0x00
  | (fails, code) :: rest => if fails then code else firstFailure rest

/-- The same state of a block placed elsewhere in the host's address map (20_memory.md R86). -/
def placedAt (b : Nat) (s : State) : State := { s with cfg := { s.cfg with base := b } }

end Sys2Proof
end

