-- ==== Sys2Proof/Certificates/Slice0/Obligations.lean ====
section
/-! DEFINITION. The statements about the block, for the provers: each from the numbered rules of spec/. -/

open Sys2Proof Sys2Proof.Machine

/-! ## Command words -/

/-- 30_encoding.md R103: the encoding of every command decodes to it. -/
def Obligations.EncodedCommandDecodesToItself : Prop :=
  ∀ i : Instr, i.wf = true → decode (encode i) = .ok i

/-- A few command words written out from 30_encoding.md R101, R103: the opcode in bits 7:0, bits 15:8 ignored. -/
def Obligations.WrittenOutCommandWordsDecode : Prop :=
  decode 0b0000000000000001 = .ok .dpenc ∧ decode 0b0000000000000010 = .ok .dpdec ∧
  decode 0b0000000000000011 = .ok .cksum ∧ decode 0b0000000000000100 = .ok .build ∧
  decode 0b0000000000000101 = .ok .parse ∧ decode 0b0000000100000001 = .ok .dpenc ∧
  decode 0b0000010100000000 = .error (.illegalOpcode 0) ∧ decode 0b0000000000000110 = .error (.illegalOpcode 6)

/-- R103: the command is selected by all eight bits `d[7:0]` and by nothing else of the word. -/
def Obligations.CommandSelectedByLowEightBits : Prop :=
  ∀ (d : Word) (i : Instr), decode d = .ok i ↔
    (d.toNat % 256, i) ∈ [(0x01, Instr.dpenc), (0x02, .dpdec), (0x03, .cksum), (0x04, .build), (0x05, .parse)]

/-- R104: a command word with any other opcode runs no operation; it gives the error completion with
IllegalCommand, whatever the state, and there is no third case. -/
def Obligations.IllegalOpcodeCompletesWithIllegalCommand : Prop :=
  ∀ (d : Word) (s : State) (rest : List HostEvent), NextIs s (.wrreg 0x00 d) rest →
    ((d.toNat % 256 = 0x00 ∨ 0x06 ≤ d.toNat % 256) →
      ∃ t, step s = .next t ∧ ErrorCompletion (s.setPort rest) t 0x0C) ∧
    (¬ (d.toNat % 256 = 0x00 ∨ 0x06 ≤ d.toNat % 256) → ∃ i, step s = exec i (s.setPort rest))

/-- 10_state.md R34: a step whose next event is a command write runs exactly the command it decodes to, and the
event is taken from the port. -/
def Obligations.StepRunsTheDecodedCommand : Prop :=
  ∀ (s : State) (d : Word) (rest : List HostEvent) (i : Instr),
    NextIs s (.wrreg 0x00 d) rest → i.wf = true → decode d = .ok i → step s = exec i (s.setPort rest)

/-- A word placed where the machine takes its next command is run by the very next step, with nothing else
changed (the model's own loader, notes/assumptions/2.md). -/
def Obligations.PlacedCommandWordRunsNext : Prop :=
  ∀ (s : State) (nbits w : Nat) (i : Instr),
    decodeTableWord nbits w = some i → step (s.withFetchWord nbits w) = exec i s

/-! ## The host port -/

/-- 10_state.md R31, R34, R44; 20_memory.md R71: RDREG gives the register of the map, zero-extended, and 0x0000 at
CMD and at reserved addresses; it changes nothing else (the list of returned values is the model's:
notes/assumptions/4.md). -/
def Obligations.RegisterReadFollowsTheMap : Prop :=
  ∀ (s : State) (a : Byte) (rest : List HostEvent), NextIs s (.rdreg a) rest →
    ∃ v : Word, v.toNat = ((registerTable s).lookup a.toNat).getD 0 ∧
      step s = .next { s with port := rest, reads := s.reads ++ [.reg v] }

/-- 10_state.md R32, R35, R44; 20_memory.md R71: WRREG at an address other than CMD's writes `d[7:0]` to ARG0 to
ARG2, all of d to ILEN, and is ignored everywhere else. -/
def Obligations.RegisterWriteStoresOrIsIgnored : Prop :=
  ∀ (s : State) (a : Byte) (d : Word) (rest : List HostEvent), NextIs s (.wrreg a d) rest → a ≠ 0x00 →
    step s = .next (
      if a = 0x01 then { s with port := rest, arg0 := BitVec.ofNat 8 (d.toNat % 256) }
      else if a = 0x02 then { s with port := rest, arg1 := BitVec.ofNat 8 (d.toNat % 256) }
      else if a = 0x03 then { s with port := rest, arg2 := BitVec.ofNat 8 (d.toNat % 256) }
      else if a = 0x04 then { s with port := rest, ilen := d }
      else { s with port := rest })

/-- 20_memory.md R81: a register read returns the last value written before it: `d[7:0]` for ARG0 to ARG2, d for
ILEN, and what it held before at every address whose writes are ignored (returned values: notes/assumptions/4.md). -/
def Obligations.RegisterReadReturnsLastWrite : Prop :=
  ∀ (s : State) (a : Byte) (d : Word) (rest : List HostEvent),
    s.port = .transaction (.wrreg a d) :: .transaction (.rdreg a) :: rest → a ≠ 0x00 →
    ∃ (t : State) (v : Word), Steps 2 s t ∧ t.reads = s.reads ++ [.reg v] ∧ t.port = rest ∧
      v.toNat = if a.toNat ≤ 0x03 then d.toNat % 256 else if a.toNat = 0x04 then d.toNat
        else ((registerTable s).lookup a.toNat).getD 0

/-- 20_memory.md R72: WRIB stores its byte inside IBUF and is ignored outside it; every other IBUF byte, OBUF and
every register stay as they were. -/
def Obligations.InputByteWriteStoresOrIsIgnored : Prop :=
  ∀ (s : State) (i : Word) (b : Byte) (rest : List HostEvent), NextIs s (.wrib i b) rest →
    ∃ t, step s = .next t ∧ t = { s with port := rest, ibuf := t.ibuf } ∧
      ∀ j, ibufByte t j = if i.toNat < s.cfg.maxLen ∧ j = i.toNat then some b else ibufByte s j

/-- 20_memory.md R72, R81: a byte written to IBUF is what the next host read of that index returns, or 0x00 at an
index outside IBUF (returned values: notes/assumptions/4.md). -/
def Obligations.InputByteReadReturnsLastWrite : Prop :=
  ∀ (s : State) (i : Word) (b : Byte) (rest : List HostEvent),
    s.port = .transaction (.wrib i b) :: .transaction (.rdib i) :: rest →
    ∃ t, Steps 2 s t ∧ t.reads = s.reads ++ [.byte (if i.toNat < s.cfg.maxLen then b else 0x00)]

/-- 20_memory.md R72, R73: a host read of a buffer byte returns the byte where it holds a value and 0x00 outside
the buffer; nothing else changes (returned values: notes/assumptions/4.md). -/
def Obligations.BufferReadReturnsByteOrZero : Prop :=
  ∀ (s : State) (i : Word) (rest : List HostEvent) (b : Byte),
    (NextIs s (.rdib i) rest → (i.toNat < s.cfg.maxLen ∧ ibufByte s i.toNat = some b ∨ s.cfg.maxLen ≤ i.toNat ∧ b = 0x00) →
      step s = .next { s with port := rest, reads := s.reads ++ [.byte b] }) ∧
    (NextIs s (.rdob i) rest → (i.toNat < s.cfg.maxLen + 10 ∧ obufByte s i.toNat = some b ∨ s.cfg.maxLen + 10 ≤ i.toNat ∧ b = 0x00) →
      step s = .next { s with port := rest, reads := s.reads ++ [.byte b] })

/-- 70_reset_and_hazards.md R272: a host read of a byte with no value returns some byte and goes on; a command write
faults exactly where its command reads an IBUF byte with no value, and that is the one fault of a step. The draw
counter is the model's (notes/assumptions/5.md); that a command reads all of `IBUF[0..ILEN)` right after its BadLength
check is read from the pseudocode of R164, R186 and R216 (notes/assumptions/6.md). -/
def Obligations.ValuelessByteIsDrawnByReadsAndFaultsCommands : Prop :=
  (∀ (s : State) (i : Word) (rest : List HostEvent),
    (NextIs s (.rdib i) rest ∧ i.toNat < s.cfg.maxLen ∧ ibufByte s i.toNat = none ∨
     NextIs s (.rdob i) rest ∧ i.toNat < s.cfg.obufCap ∧ obufByte s i.toNat = none) →
    ∃ (b : Byte) (t : State), step s = .next t ∧
      t = { s with port := rest, reads := s.reads ++ [.byte b], draws := t.draws }) ∧
  (∀ (s : State) (f : Fault), step s = .fault f ↔ f = .unwrittenInputByte ∧
    ∃ (d : Word) (rest : List HostEvent) (i : Nat), NextIs s (.wrreg 0x00 d) rest ∧
      (d.toNat % 256 = 0x03 ∨ d.toNat % 256 = 0x04 ∨ d.toNat % 256 = 0x05) ∧
      s.ilen.toNat ≤ s.cfg.maxLen ∧ i < s.ilen.toNat ∧ ibufByte s i = none)

/-- 20_memory.md R79: the three read transactions have no side effect on the block: every register, both buffers
and the parameters stay as they were, and one value is returned (returned values and draw counter:
notes/assumptions/4.md and 5.md). -/
def Obligations.ReadTransactionsChangeNothingInTheBlock : Prop :=
  ∀ (s : State) (x : HostTransaction) (rest : List HostEvent),
    (∃ a, x = .rdreg a) ∨ (∃ i, x = .rdib i) ∨ (∃ i, x = .rdob i) → NextIs s x rest →
    ∃ (t : State) (v : ReadData), step s = .next t ∧ t.reads = s.reads ++ [v] ∧
      t = { s with port := rest, reads := t.reads, draws := t.draws }

/-- No step refuses, whatever the state: every transaction and every command word has an effect (R104, R253). -/
def Obligations.StepNeverRefuses : Prop :=
  ∀ (s : State) (r : Refusal), step s ≠ .refused r

/-- 20_memory.md R81: host events take effect in the order the host issued them, one a step, and what reads
returned is never lost (the port, the returned values and the draw counter: notes/assumptions/2.md, 4.md, 5.md). -/
def Obligations.EventsAreTakenInOrder : Prop :=
  ∀ (k : Nat) (s t : State), Steps k s t → t.port = s.port.drop k ∧ s.reads <+: t.reads ∧ s.draws ≤ t.draws

/-- A step with no host event pending changes nothing: the model's choice (notes/assumptions/3.md). -/
def Obligations.IdleStepChangesNothing : Prop :=
  ∀ s : State, s.port = [] → step s = .next s

/-! ## Reset -/

/-- 70_reset_and_hazards.md R271: after reset every register is 0 and no buffer byte holds a value. -/
def Obligations.ResetZeroesRegistersAndEmptiesBuffers : Prop :=
  State.reset.arg0 = 0x00 ∧ State.reset.arg1 = 0x00 ∧ State.reset.arg2 = 0x00 ∧ State.reset.ilen = 0x0000 ∧
  State.reset.bank.status = 0x00 ∧ State.reset.bank.flags = 0x00 ∧ State.reset.bank.olen = 0x0000 ∧
  State.reset.bank.resKind = 0x00 ∧ State.reset.bank.resTid = 0x0000 ∧ State.reset.bank.resPid = 0x0000 ∧
  State.reset.bank.resAdr = 0x0000 ∧ State.reset.bank.resVal = 0x0000 ∧ State.reset.bank.resCode = 0x00 ∧
  State.reset.bank.resDesc = 0x00 ∧ ∀ i, ibufByte State.reset i = none ∧ obufByte State.reset i = none

/-- R270, R271, R273: the external reset between two transactions leaves the registers and buffers as reset does and
the parameters as they were; the host's pending events and what it has seen are kept (notes/assumptions/8.md). -/
def Obligations.ExternalResetRestoresResetState : Prop :=
  ∀ (s : State) (rest : List HostEvent), s.port = .reset :: rest →
    step s = .next { State.reset with cfg := s.cfg, port := rest, reads := s.reads, draws := s.draws }

/-- The invariant of the machine holds after reset. -/
def Obligations.InvariantHoldsAtReset : Prop := StateInv State.reset

/-! ## Digit pairs -/

/-- 40_digit_pair.md R140: two digits, zero-padded, for 0..99, and InvalidFieldRange for every other integer. -/
def Obligations.DigitPairEncodeGivesTwoDigits : Prop :=
  ∀ n : Int,
    (0 ≤ n → n ≤ 99 → ∃ b0 b1 : Byte, digitPairEncode n = .ok [b0, b1] ∧
      (b0.toNat : Int) = 0x30 + n / 10 ∧ (b1.toNat : Int) = 0x30 + n % 10) ∧
    ((n < 0 ∨ 99 < n) → digitPairEncode n = .error .invalidFieldRange)

/-- R141: the exact formula, its range with both ends reached, and no loss in a 16-bit register. -/
def Obligations.DigitPairDecodeIsExact : Prop :=
  (∀ b0 b1 : Byte,
    digitPairDecode b0 b1 = ((b0.toNat : Int) - 0x30) * 10 + ((b1.toNat : Int) - 0x30) ∧
    -528 ≤ digitPairDecode b0 b1 ∧ digitPairDecode b0 b1 ≤ 2277 ∧
    fromS16 (s16 (digitPairDecode b0 b1)) = digitPairDecode b0 b1) ∧
  digitPairDecode 0x00 0x00 = -528 ∧ digitPairDecode 0xFF 0xFF = 2277

/-- R142: on digit bytes decoding lies in 0..99 and encoding gives the bytes back; an in-range value does not show
that the bytes were digits. -/
def Obligations.DigitBytesDecodeInRangeAndEncodeBack : Prop :=
  (∀ b0 b1 : Byte, digitsValid b0 b1 = true ↔
    (0x30 ≤ b0.toNat ∧ b0.toNat ≤ 0x39) ∧ (0x30 ≤ b1.toNat ∧ b1.toNat ≤ 0x39)) ∧
  (∀ b0 b1 : Byte, digitsValid b0 b1 = true →
    0 ≤ digitPairDecode b0 b1 ∧ digitPairDecode b0 b1 ≤ 99 ∧
    digitPairEncode (digitPairDecode b0 b1) = .ok [b0, b1]) ∧
  digitPairDecode 0x2F 0x3B = 1 ∧ digitsValid 0x2F 0x3B = false

/-- R143: every number of 0..99 comes back, from bytes that are digits. -/
def Obligations.DigitPairRoundTrip : Prop :=
  ∀ n : Int, 0 ≤ n → n ≤ 99 → ∃ b0 b1 : Byte, digitPairEncode n = .ok [b0, b1] ∧
    digitPairDecode b0 b1 = n ∧ digitsValid b0 b1 = true

/-- 43_decoder.md R206: on digit bytes the checksum decision is exactly the two bytes "01". -/
def Obligations.DigitPidIsOneOnlyForZeroOne : Prop :=
  ∀ b0 b1 : Byte, digitsValid b0 b1 = true → (digitPairDecode b0 b1 = 1 ↔ b0 = 0x30 ∧ b1 = 0x31)

/-- R144: DPENC, whole: the two digits of ARG0 in OBUF, or InvalidFieldRange above 99; no IBUF byte and no ILEN
matters. -/
def Obligations.DpencEncodesArgZero : Prop :=
  ∀ s : State,
    (s.arg0.toNat ≤ 99 → ∃ t, exec .dpenc s = .next t ∧ t.bank = { ResultBank.zero with olen := 2 } ∧
      ObufHolds t (twoDigits s.arg0.toNat) ∧ CommandFrame s t 2) ∧
    (99 < s.arg0.toNat → ∃ t, exec .dpenc s = .next t ∧ ErrorCompletion s t 0x06)

/-- R145: DPDEC, whole: never an error, RES_VAL the decoded value, FLAGS.DIG the digit check, OBUF not written. -/
def Obligations.DpdecDecodesArgs : Prop :=
  ∀ s : State, ∃ t, exec .dpdec s = .next t ∧
    t.bank = { ResultBank.zero with
                resVal := t.bank.resVal, flags := flagBits (isDigit s.arg0 && isDigit s.arg1) false } ∧
    fromS16 t.bank.resVal = ((s.arg0.toNat : Int) - 0x30) * 10 + ((s.arg1.toNat : Int) - 0x30) ∧
    CommandFrame s t 0

/-! ## Checksum -/

/-- 41_checksum.md R160: the sum of the bytes as unsigned integers, mod 256; 0x00 for the empty sequence. -/
def Obligations.ChecksumIsSumModulo256 : Prop :=
  (∀ bs : List Byte, (checksum bs).toNat = (bs.map BitVec.toNat).sum % 256) ∧ checksum [] = 0x00

/-- R161: the rendering of a byte is its two uppercase hex characters, high nibble first; no lowercase letter. -/
def Obligations.HexPairIsUppercaseHex : Prop :=
  (∀ v, v ≤ 15 → (hexDigit v).toNat = if v ≤ 9 then 0x30 + v else 0x41 + (v - 10)) ∧
  (∀ c : Byte, hexPair c = [hexDigit (c.toNat / 16), hexDigit (c.toNat % 16)]) ∧
  (∀ c b : Byte, b ∈ hexPair c → (0x30 ≤ b.toNat ∧ b.toNat ≤ 0x39) ∨ (0x41 ≤ b.toNat ∧ b.toNat ≤ 0x46))

/-- R161, 43_decoder.md R210: two bytes with the same rendering are equal, so the comparison of rendered checksums
loses nothing. -/
def Obligations.HexPairIsInjective : Prop :=
  ∀ c d : Byte, hexPair c = hexPair d → c = d

/-- R163: the laws of the checksum, (a) to (e). -/
def Obligations.ChecksumLaws : Prop :=
  (∀ bs : List Byte, checksum bs = bs.foldl (fun acc b => acc + b) 0) ∧
  (∀ xs ys : List Byte, (checksum (xs ++ ys)).toNat = ((checksum xs).toNat + (checksum ys).toNat) % 256) ∧
  (∀ xs ys : List Byte, xs.Perm ys → checksum xs = checksum ys) ∧
  (∀ bs : List Byte, (checksum bs).toNat ≤ 255) ∧
  (∀ (bs : List Byte) (i k : Nat), i < bs.length → k < 8 →
    checksum (bs.set i (byteAt bs i ^^^ (1#8 <<< k))) ≠ checksum bs) ∧
  (∃ xs ys : List Byte, ys = (xs.set 0 (byteAt xs 0 ^^^ 0x80)).set 1 (byteAt xs 1 ^^^ 0x80) ∧ ys ≠ xs ∧
    checksum xs = checksum ys)

/-- R164: CKSUM, whole: the checksum of the input sequence in RES_VAL and its two characters in OBUF, or BadLength. -/
def Obligations.CksumSumsTheInput : Prop :=
  ∀ s : State,
    (∀ bs : List Byte, InputIs s bs → ∃ t, exec .cksum s = .next t ∧
      t.bank = { ResultBank.zero with olen := 2, resVal := t.bank.resVal } ∧
      t.bank.resVal.toNat = (bs.map BitVec.toNat).sum % 256 ∧
      ObufHolds t (hexPair (BitVec.ofNat 8 t.bank.resVal.toNat)) ∧ CommandFrame s t 2) ∧
    (s.cfg.maxLen < s.ilen.toNat → ∃ t, exec .cksum s = .next t ∧ ErrorCompletion s t 0x0B)

/-! ## Frame encoder -/

/-- 30_encoding.md R106: the layout of a request frame by index, and its length. -/
def Obligations.RequestFrameLayout : Prop :=
  ∀ (tid pid adr : Nat) (item : List Byte), tid ≤ 99 → pid ≤ 99 → adr ≤ 99 → item.all isAscii = true →
    ∃ r : List Byte, buildRequest tid pid adr item = .ok r ∧
      r.length = 8 + item.length + 2 * (if pid = 1 then 1 else 0) ∧
      r[0]? = some 0x02 ∧
      [r[1]?, r[2]?] = (twoDigits tid).map some ∧ [r[3]?, r[4]?] = (twoDigits pid).map some ∧
      [r[5]?, r[6]?] = (twoDigits adr).map some ∧
      (∀ k, k < item.length → r[7 + k]? = item[k]?) ∧
      (pid = 1 → [r[7 + item.length]?, r[8 + item.length]?] =
        (hexPair (checksum (slice r 1 (7 + item.length)))).map some) ∧
      r[7 + item.length + 2 * (if pid = 1 then 1 else 0)]? = some 0x03

/-- 42_encoder.md R186: BUILD completes for every input its checks admit: the frame in OBUF, OLEN its length, CKP and
the checksum in RES_VAL when pid = 1, nothing else. -/
def Obligations.BuildEmitsRequestFrame : Prop :=
  ∀ (s : State) (item : List Byte), s.cfg.wf = true → InputIs s item →
    s.arg0.toNat ≤ 99 → s.arg1.toNat ≤ 99 → s.arg2.toNat ≤ 99 → (∀ b ∈ item, b.toNat ≤ 0x7F) →
    let body := frameBody s.arg0.toNat s.arg1.toNat s.arg2.toNat item
    let c := decide (s.arg1.toNat = 1)
    ∃ t, exec .build s = .next t ∧
      t.bank = { ResultBank.zero with
                  olen := t.bank.olen, flags := flagBits false c
                  resVal := if c then zext16 (checksum body) else 0 } ∧
      t.bank.olen.toNat = 8 + item.length + 2 * (if c then 1 else 0) ∧
      t.bank.olen.toNat = (frameOf 0x02 body c).length ∧
      ObufHolds t (frameOf 0x02 body c) ∧ CommandFrame s t t.bank.olen.toNat

/-- 60_exceptions.md R247, 42_encoder.md R183: BUILD's checks in their order, each with its error completion. -/
def Obligations.BuildReportsFirstFailingCheck : Prop :=
  ∀ s : State,
    (s.cfg.maxLen < s.ilen.toNat → ∃ t, exec .build s = .next t ∧ ErrorCompletion s t 0x0B) ∧
    (∀ item : List Byte, InputIs s item →
      ((99 < s.arg0.toNat ∨ 99 < s.arg1.toNat ∨ 99 < s.arg2.toNat) →
        ∃ t, exec .build s = .next t ∧ ErrorCompletion s t 0x06) ∧
      (s.arg0.toNat ≤ 99 → s.arg1.toNat ≤ 99 → s.arg2.toNat ≤ 99 → (∃ b ∈ item, 0x7F < b.toNat) →
        ∃ t, exec .build s = .next t ∧ ErrorCompletion s t 0x07))

/-! ## Frame decoder -/

/-- 43_decoder.md R213: the description table, by exact byte equality, with its texts; every other byte gives 9. -/
def Obligations.NakDescriptionFollowsTheTable : Prop :=
  (∀ code : Byte, (nakDescIndex (nakDesc code)).toNat =
    (([(0x43, 1), (0x44, 2), (0x49, 3), (0x4D, 4), (0x4F, 5), (0x54, 6), (0x56, 7), (0x58, 8)] :
      List (Nat × Nat)).lookup code.toNat).getD 9) ∧
  [0x43, 0x44, 0x49, 0x4D, 0x4F, 0x54, 0x56, 0x58, 0x00].map (fun code : Byte => nakDescText (nakDesc code)) =
    ["Checksum fault", "Invalid data type; expected a string-typed value", "Unknown item ID",
     "Timeout on the hub's master port", "Too many read items", "Timeout on the hub's slave port",
     "Validation: write value out of range", "Internal: wrong multi-drop address", "Unknown error code"]

/-- 60_exceptions.md R248, 43_decoder.md R214: PARSE reports the first failing check in the fixed order, under every
parameter setting; an error leaves the error completion. -/
def Obligations.ParseReportsFirstFailingCheck : Prop :=
  ∀ s : State,
    (s.cfg.maxLen < s.ilen.toNat → ∃ t, exec .parse s = .next t ∧ ErrorCompletion s t 0x0B) ∧
    (∀ f : List Byte, InputIs s f → ∃ t, exec .parse s = .next t ∧
      t.bank.status = firstFailure (responseChecks s.cfg f) ∧
      (t.bank.status ≠ 0x00 → ErrorCompletion s t (firstFailure (responseChecks s.cfg f))))

/-- 43_decoder.md R211, R216: PARSE completes on every ACK frame that the parameters admit: the decoded fields, the
flags, the checksum, and the payload in OBUF. -/
def Obligations.ParseAcceptsAckFrame : Prop :=
  ∀ (s : State) (b1 b2 b3 b4 b5 b6 : Byte) (payload : List Byte),
    let fields := [b1, b2, b3, b4, b5, b6]
    InputIs s (frameOf 0x06 (fields ++ payload) (decide (digitPairDecode b3 b4 = 1))) →
    (s.cfg.strictDigits = true → fields.all isDigit = true) →
    (s.cfg.ackAsciiStrict = true → ∀ b ∈ payload, b.toNat ≤ 0x7F) →
    ∃ t, exec .parse s = .next t ∧
      t.bank = { parsedBank b1 b2 b3 b4 b5 b6 (fields ++ payload) payload.length with resKind := 1 } ∧
      t.bank.olen.toNat = payload.length ∧ ObufHolds t payload ∧ CommandFrame s t payload.length

/-- R212, R216: PARSE completes on every NAK frame with a one-byte payload: the code byte and its description index,
a code outside the table included. -/
def Obligations.ParseAcceptsNakFrame : Prop :=
  ∀ (s : State) (b1 b2 b3 b4 b5 b6 code : Byte),
    let fields := [b1, b2, b3, b4, b5, b6]
    InputIs s (frameOf 0x15 (fields ++ [code]) (decide (digitPairDecode b3 b4 = 1))) →
    (s.cfg.strictDigits = true → fields.all isDigit = true) →
    ∃ t, exec .parse s = .next t ∧
      t.bank = { parsedBank b1 b2 b3 b4 b5 b6 (fields ++ [code]) 1 with
                  resKind := 2, resCode := code, resDesc := nakDescIndex (nakDesc code) } ∧
      ObufHolds t [code] ∧ CommandFrame s t 1

/-- R201, 30_encoding.md R107: PARSE succeeds only on frames of the response format: a frame it accepts is an ACK or
NAK sentinel, six field bytes, a payload, the right CRC field exactly when pid = 1, and ETX. -/
def Obligations.ParseAcceptsOnlyResponseFrames : Prop :=
  ∀ (s t : State) (f : List Byte), InputIs s f → exec .parse s = .next t → t.bank.status = 0x00 →
    ∃ (sentinel b1 b2 b3 b4 b5 b6 : Byte) (payload : List Byte),
      f = frameOf sentinel ([b1, b2, b3, b4, b5, b6] ++ payload) (decide (digitPairDecode b3 b4 = 1)) ∧
      (s.cfg.strictDigits = true → [b1, b2, b3, b4, b5, b6].all isDigit = true) ∧
      (sentinel = 0x06 ∧ t.bank.resKind = 1 ∧ (s.cfg.ackAsciiStrict = true → ∀ b ∈ payload, b.toNat ≤ 0x7F) ∨
       sentinel = 0x15 ∧ t.bank.resKind = 2 ∧ payload.length = 1)

/-- R215: the round trip: an ACK frame with decimal fields and an ASCII payload decodes to what it was made of,
under every parameter setting. -/
def Obligations.AckFrameRoundTrip : Prop :=
  ∀ (p : Params) (tid pid adr : Nat) (payload : List Byte), tid ≤ 99 → pid ≤ 99 → adr ≤ 99 →
    (∀ b ∈ payload, b.toNat ≤ 0x7F) →
    ∃ r, parseResponse p (frameOf 0x06 (frameBody tid pid adr payload) (decide (pid = 1))) = .ok r ∧
      r.tid = tid ∧ r.pid = pid ∧ r.adr = adr ∧ r.content = .ack payload ∧ r.ck = decide (pid = 1) ∧ r.dig = true

/-- The request loop (95_test_vectors.md P2, 43_decoder.md R215): what BUILD leaves in OBUF, with ACK in place of STX
and handed to any block whose IBUF it fits, is parsed back to the same fields and item. -/
def Obligations.BuiltFrameParsesBack : Prop :=
  ∀ (s u : State) (item : List Byte), s.cfg.wf = true → InputIs s item →
    s.arg0.toNat ≤ 99 → s.arg1.toNat ≤ 99 → s.arg2.toNat ≤ 99 → (∀ b ∈ item, b.toNat ≤ 0x7F) →
    ∃ t, exec .build s = .next t ∧
      (u.ilen = t.bank.olen → u.ilen.toNat ≤ u.cfg.maxLen → ibufByte u 0 = some 0x06 →
        (∀ i, 0 < i → i < t.bank.olen.toNat → ibufByte u i = obufByte t i) →
        ∃ v, exec .parse u = .next v ∧ v.bank.status = 0x00 ∧ v.bank.resKind = 1 ∧
          v.bank.resTid = zext16 s.arg0 ∧ v.bank.resPid = zext16 s.arg1 ∧ v.bank.resAdr = zext16 s.arg2 ∧
          v.bank.resVal = t.bank.resVal ∧ v.bank.olen.toNat = item.length ∧ ObufHolds v item)

/-- 41_checksum.md R163 (e), 43_decoder.md R203, R204, R206, R210: where PARSE accepts a frame that carries a checksum,
one flipped bit in any byte but the two PID bytes makes it an error, under every parameter setting: UnknownSentinel in
the sentinel, MissingTerminator in ETX, MalformedDigits where strict digits are checked and the flipped TID or ADR byte
is no digit, and ChecksumMismatch everywhere else in TID, ADR, payload and CRC. -/
def Obligations.SingleBitFlipOutsidePidIsDetected : Prop :=
  ∀ (s t u : State) (f : List Byte) (i k : Nat), InputIs s f → exec .parse s = .next t → t.bank.status = 0x00 →
    t.bank.flags.getLsbD 1 = true → i < f.length → i ≠ 3 → i ≠ 4 → k < 8 →
    let b := byteAt f i ^^^ (1#8 <<< k)
    InputIs u (f.set i b) → u.cfg = s.cfg →
    ∃ v, exec .parse u = .next v ∧ ErrorCompletion u v (
      if i = 0 then 0x02
      else if i = f.length - 1 then 0x03
      else if s.cfg.strictDigits = true ∧ i ≤ 6 ∧ isDigit b = false then 0x08
      else 0x05)

/-- 30_encoding.md R109, 43_decoder.md R206, R207, R209: where PARSE accepts a frame that carries a checksum, one flipped
bit in a PID byte makes PID decode to another value than 1, so that the frame carries none: with strict digits and no
digit left it is MalformedDigits, else a NAK frame is BadNakPayload and an ACK frame is accepted with CKP = 0 and the two
CRC characters at the end of its payload. -/
def Obligations.PidBitFlipRemovesTheChecksum : Prop :=
  ∀ (s t u : State) (f : List Byte) (i k : Nat), InputIs s f → exec .parse s = .next t → t.bank.status = 0x00 →
    t.bank.flags.getLsbD 1 = true → i = 3 ∨ i = 4 → k < 8 →
    let b := byteAt f i ^^^ (1#8 <<< k)
    InputIs u (f.set i b) → u.cfg = s.cfg →
    ∃ v, exec .parse u = .next v ∧
      (s.cfg.strictDigits = true ∧ isDigit b = false → ErrorCompletion u v 0x08) ∧
      (¬ (s.cfg.strictDigits = true ∧ isDigit b = false) → byteAt f 0 = 0x15 → ErrorCompletion u v 0x09) ∧
      (¬ (s.cfg.strictDigits = true ∧ isDigit b = false) → byteAt f 0 = 0x06 →
        v.bank.status = 0x00 ∧ v.bank.resKind = 1 ∧ v.bank.flags.getLsbD 1 = false ∧ v.bank.resVal = 0 ∧
        v.bank.olen.toNat = f.length - 8 ∧ ObufHolds v (slice f 7 (f.length - 1)) ∧
        CommandFrame u v (f.length - 8))

/-! ## Whole machine -/

/-- 10_state.md R46, R48, 42_encoder.md R187: no command, legal or not, writes anything but the result bank and
`OBUF[0..OLEN)`. -/
def Obligations.CommandsWriteOnlyBankAndOutput : Prop :=
  ∀ (d : Word) (s t : State), s.cfg.wf = true → runCommandWord d s = .next t →
    CommandFrame s t t.bank.olen.toNat

/-- 10_state.md R46: a command's inputs can be used again without being written again: the same command run twice in
a row leaves what it left the first time. -/
def Obligations.RepeatedCommandChangesNothing : Prop :=
  ∀ (d : Word) (s t : State), StateInv s → runCommandWord d s = .next t → runCommandWord d t = .next t

/-- 10_state.md R45, R50: the result bank and `OBUF[0..OLEN)` a command leaves, and whether it faults, are a function
of the opcode, ARG0 to ARG2, ILEN, `IBUF[0..ILEN)` and the parameters alone. -/
def Obligations.CommandOutputsDependOnInputsOnly : Prop :=
  ∀ (d1 d2 : Word) (s1 s2 : State), d2.toNat % 256 = d1.toNat % 256 →
    s2.arg0 = s1.arg0 → s2.arg1 = s1.arg1 → s2.arg2 = s1.arg2 → s2.ilen = s1.ilen → s2.cfg = s1.cfg →
    (∀ i, i < s1.ilen.toNat → ibufByte s2 i = ibufByte s1 i) →
    (∀ t1, runCommandWord d1 s1 = .next t1 → ∃ t2, runCommandWord d2 s2 = .next t2 ∧ t2.bank = t1.bank ∧
      ∀ i, i < t1.bank.olen.toNat → obufByte t2 i = obufByte t1 i) ∧
    (∀ f, runCommandWord d1 s1 = .fault f → runCommandWord d2 s2 = .fault f)

/-- 60_exceptions.md R241, R242: a command that ends with an error status leaves the state before it with only the
result bank changed, and in that only STATUS is not 0. -/
def Obligations.ErrorLeavesOnlyStatus : Prop :=
  ∀ (d : Word) (s t : State), runCommandWord d s = .next t → t.bank.status ≠ 0x00 →
    t = { s with bank := { ResultBank.zero with status := t.bank.status } }

/-- 70_reset_and_hazards.md R274: after the boot duty every command word completes; no state of the result bank or
of OBUF keeps a block from it (60_exceptions.md R242). -/
def Obligations.ReadyInputCompletesEveryCommand : Prop :=
  ∀ (d : Word) (s : State), InputReady s → ∃ t, runCommandWord d s = .next t

/-- 70_reset_and_hazards.md R276: a result lives until the next command or reset: no other event changes the result
bank or OBUF. -/
def Obligations.ResultLivesUntilNextCommandOrReset : Prop :=
  ∀ (s t : State) (e : HostEvent) (rest : List HostEvent), s.port = e :: rest → e ≠ .reset →
    (∀ d, e ≠ .transaction (.wrreg 0x00 d)) → step s = .next t → t.bank = s.bank ∧ t.obuf = s.obuf

/-- 10_state.md R30, 70_reset_and_hazards.md R273: no step, the external reset included, changes the parameters. -/
def Obligations.ParametersNeverChange : Prop :=
  ∀ s t : State, step s = .next t → t.cfg = s.cfg

/-- 20_memory.md R86: where the port sits in the host's address map is read by no rule: a block placed elsewhere
takes the same step. -/
def Obligations.PlacementIsReadByNoRule : Prop :=
  ∀ (b : Nat) (s : State), step (placedAt b s) =
    match step s with
    | .next t => .next (placedAt b t)
    | .fault f => .fault f
    | .refused r => .refused r

/-- Every step keeps the invariant of the machine, from every state that has it: parameters in range, buffers in
canonical form and inside their capacity, no reserved FLAGS bit and no unused register value (10_state.md R37, R39,
R40, 60_exceptions.md R240, R241), and `OBUF[0..OLEN)` inside OBUF with a value in every byte (20_memory.md R73). -/
def Obligations.StepKeepsInvariant : Prop :=
  ∀ s t : State, StateInv s → step s = .next t → StateInv t

/-- R278, 20_memory.md R73: after any number of steps from a state with the invariant, `OBUF[0..OLEN)` holds a value in
every byte, and those bytes are what a run shows as its output. -/
def Obligations.ObservedOutputIsDefined : Prop :=
  ∀ (k : Nat) (s t : State), StateInv s → Steps k s t →
    ∃ out : List Byte, (observe t).out = some out ∧ out.length = t.bank.olen.toNat ∧ ObufHolds t out

/-! ## Host programs -/

/-- 30_encoding.md R114, 70_reset_and_hazards.md R274: the transactions of `load` leave ILEN and `IBUF[0..ILEN)` as
the bytes it names, and no other byte of IBUF, no other register and no output is touched. -/
def Obligations.LoadMakesTheInput : Prop :=
  ∀ (s : State) (bs : List Byte) (rest : List HostEvent), bs.length ≤ s.cfg.maxLen → bs.length ≤ 65535 →
    s.port = (expandPseudo (.load bs)).map .transaction ++ rest →
    ∃ t, Steps (bs.length + 1) s t ∧ InputIs t bs ∧ t = { s with port := rest, ilen := t.ilen, ibuf := t.ibuf } ∧
      ∀ i, bs.length ≤ i → ibufByte t i = ibufByte s i

/-- R114: `build tid, pid, adr` writes the three operand registers and runs BUILD on them. -/
def Obligations.BuildPseudoRunsBuildOnItsOperands : Prop :=
  ∀ (s : State) (tid pid adr : Word) (rest : List HostEvent),
    s.port = (expandPseudo (.build tid pid adr)).map .transaction ++ rest →
    ∃ t, Steps 3 s t ∧ step t = exec .build { s with
      port := rest, arg0 := BitVec.ofNat 8 (tid.toNat % 256), arg1 := BitVec.ofNat 8 (pid.toNat % 256)
      arg2 := BitVec.ofNat 8 (adr.toNat % 256) }
end

