-- ==== Sys2Proof/Laws/Memory.lean ====
section
/-! SUPPORT. The laws of a buffer: read after write, sequences, the canonical form and its bounds. Every buffer
operation has its one lemma here; callers cite it and do not unfold it. -/

namespace Sys2Proof.Machine

@[simp] theorem Memory.read_nil (i : Nat) : Memory.read [] i = none := rfl

/-- Reading after a write of one byte: that byte at its index, every other index as before. -/
theorem Memory.read_write (m : Memory) (i j : Nat) (b : Byte) :
    Memory.read (Memory.write m i b) j = if j = i then some b else Memory.read m j := by
  induction m with
  | nil => simp [Memory.write, Memory.read]
  | cons c rest ih =>
    obtain ⟨k, c⟩ := c
    by_cases h1 : i < k
    · simp [Memory.write, h1, Memory.read]
    · by_cases h2 : i = k
      · subst h2
        by_cases h : j = i <;> simp [Memory.write, Memory.read, h]
      · simp only [Memory.write, h1, h2, if_false, Memory.read, ih]
        by_cases h3 : j = k
        · subst h3; simp [Ne.symm h2]
        · simp [h3]

@[simp] theorem Memory.read_write_same (m : Memory) (i : Nat) (b : Byte) :
    Memory.read (Memory.write m i b) i = some b := by simp [Memory.read_write]

theorem Memory.read_write_other {i j : Nat} (m : Memory) (b : Byte) (h : j ≠ i) :
    Memory.read (Memory.write m i b) j = Memory.read m j := by simp [Memory.read_write, h]

/-- Reading after a write of a sequence: the sequence at its indices, every other index as before. -/
theorem Memory.read_writeSeq (bs : List Byte) : ∀ (m : Memory) (start j : Nat),
    Memory.read (Memory.writeSeq m start bs) j =
      if start ≤ j ∧ j < start + bs.length then bs[j - start]? else Memory.read m j := by
  induction bs with
  | nil => intro m start j; simp only [Memory.writeSeq]; rw [if_neg (by simp only [List.length_nil]; omega)]
  | cons b bs ih =>
    intro m start j
    simp only [Memory.writeSeq, ih, Memory.read_write, List.length_cons]
    by_cases h0 : j = start
    · subst h0; simp
    · by_cases h1 : start + 1 ≤ j ∧ j < start + 1 + bs.length
      · have h2 : start ≤ j ∧ j < start + (bs.length + 1) := by omega
        have h3 : j - start = (j - (start + 1)) + 1 := by omega
        simp [h1, h2, h3]
      · have h2 : ¬ (start ≤ j ∧ j < start + (bs.length + 1)) := by omega
        rw [if_neg h1, if_neg h2, if_neg h0]

/-- A sequence reads as `bs` exactly where its length is that and every byte of it reads so. -/
theorem Memory.readSeq_eq_some_iff (m : Memory) : ∀ (n start : Nat) (bs : List Byte),
    Memory.readSeq m start n = some bs ↔ bs.length = n ∧ ∀ i, i < n → Memory.read m (start + i) = bs[i]? := by
  intro n
  induction n with
  | zero =>
    intro start bs
    simp only [Memory.readSeq, Option.some.injEq, List.length_eq_zero_iff, Nat.not_lt_zero, false_implies,
      implies_true, and_true]
    exact eq_comm
  | succ n ih =>
    intro start bs
    simp only [Memory.readSeq]
    constructor
    · intro h
      split at h
      · rename_i b cs hb hcs
        obtain ⟨hl, hr⟩ := (ih (start + 1) cs).mp hcs
        cases h
        refine ⟨by simp [hl], fun i hi => ?_⟩
        cases i with
        | zero => simpa using hb
        | succ i => simpa [Nat.add_assoc, Nat.add_comm 1 i] using hr i (by omega)
      · cases h
    · rintro ⟨hl, hr⟩
      cases bs with
      | nil => simp at hl
      | cons b cs =>
        have hb : Memory.read m start = some b := by simpa using hr 0 (by omega)
        have hcs : Memory.readSeq m (start + 1) n = some cs :=
          (ih (start + 1) cs).mpr ⟨by simpa using hl, fun i hi => by
            simpa [Nat.add_assoc, Nat.add_comm 1 i] using hr (i + 1) (by omega)⟩
        simp [hb, hcs]

/-- A sequence does not read exactly where one of its bytes holds no value. -/
theorem Memory.readSeq_eq_none_iff (m : Memory) : ∀ (n start : Nat),
    Memory.readSeq m start n = none ↔ ∃ i, i < n ∧ Memory.read m (start + i) = none := by
  intro n
  induction n with
  | zero => intro start; simp [Memory.readSeq]
  | succ n ih =>
    intro start
    simp only [Memory.readSeq]
    constructor
    · intro h
      split at h
      · cases h
      · rename_i hno
        cases hb : Memory.read m start with
        | none => exact ⟨0, by omega, by simpa using hb⟩
        | some b =>
          cases hcs : Memory.readSeq m (start + 1) n with
          | some cs => exact (hno b cs hb hcs).elim
          | none =>
            obtain ⟨i, hi, hr⟩ := (ih (start + 1)).mp hcs
            exact ⟨i + 1, by omega, by simpa [Nat.add_assoc, Nat.add_comm 1 i] using hr⟩
    · rintro ⟨i, hi, hr⟩
      cases i with
      | zero =>
        rw [Nat.add_zero] at hr
        rw [hr]
      | succ i =>
        have : Memory.readSeq m (start + 1) n = none :=
          (ih (start + 1)).mpr ⟨i, by omega, by simpa [Nat.add_assoc, Nat.add_comm 1 i] using hr⟩
        rw [this]
        split
        · rename_i h; cases h
        · rfl

/-- The cells after a write of one byte are the written one and cells that stood before. -/
theorem Memory.mem_write {m : Memory} {i : Nat} {b : Byte} {c : Host.Cell} (h : c ∈ Memory.write m i b) :
    c = (i, b) ∨ c ∈ m := by
  induction m with
  | nil => simpa [Memory.write] using h
  | cons d rest ih =>
    obtain ⟨k, d⟩ := d
    simp only [Memory.write] at h
    split at h
    · simpa using h
    · split at h
      · rcases List.mem_cons.mp h with h | h
        · exact .inl h
        · exact .inr (List.mem_cons_of_mem _ h)
      · rcases List.mem_cons.mp h with h | h
        · exact .inr (h ▸ List.mem_cons_self)
        · rcases ih h with h | h
          · exact .inl h
          · exact .inr (List.mem_cons_of_mem _ h)

theorem Memory.wf_iff (m : Memory) : Memory.wf m = true ↔ m.Pairwise fun x y => x.1 < y.1 := by
  simp [Memory.wf]

@[simp] theorem Memory.wf_nil : Memory.wf [] = true := rfl

/-- A write keeps the canonical form. -/
theorem Memory.wf_write {m : Memory} (i : Nat) (b : Byte) (h : Memory.wf m = true) :
    Memory.wf (Memory.write m i b) = true := by
  rw [Memory.wf_iff] at h ⊢
  induction m with
  | nil => simp [Memory.write]
  | cons d rest ih =>
    obtain ⟨k, d⟩ := d
    obtain ⟨h1, h2⟩ := List.pairwise_cons.mp h
    simp only [Memory.write]
    split
    · rename_i hik
      refine List.pairwise_cons.mpr ⟨fun c hc => ?_, h⟩
      rcases List.mem_cons.mp hc with rfl | hc
      · exact hik
      · exact Nat.lt_trans hik (h1 c hc)
    · split
      · rename_i hik
        exact List.pairwise_cons.mpr ⟨fun c hc => hik ▸ h1 c hc, h2⟩
      · refine List.pairwise_cons.mpr ⟨fun c hc => ?_, ih h2⟩
        rcases Memory.mem_write hc with rfl | hc
        · simp only; omega
        · exact h1 c hc

/-- A write of a sequence keeps the canonical form. -/
theorem Memory.wf_writeSeq (bs : List Byte) : ∀ {m : Memory} (start : Nat), Memory.wf m = true →
    Memory.wf (Memory.writeSeq m start bs) = true := by
  induction bs with
  | nil => intro m start h; exact h
  | cons b bs ih => intro m start h; exact ih (start + 1) (Memory.wf_write start b h)

theorem Memory.within_iff (cap : Nat) (m : Memory) : Memory.within cap m = true ↔ ∀ c ∈ m, c.1 < cap := by
  simp [Memory.within]

@[simp] theorem Memory.within_nil (cap : Nat) : Memory.within cap [] = true := rfl

/-- A write inside the buffer keeps every index inside it. -/
theorem Memory.within_write {cap : Nat} {m : Memory} {i : Nat} (b : Byte) (hi : i < cap)
    (h : Memory.within cap m = true) : Memory.within cap (Memory.write m i b) = true := by
  rw [Memory.within_iff] at h ⊢
  intro c hc
  rcases Memory.mem_write hc with rfl | hc
  · exact hi
  · exact h c hc

/-- A write of a sequence inside the buffer keeps every index inside it. -/
theorem Memory.within_writeSeq {cap : Nat} (bs : List Byte) : ∀ {m : Memory} (start : Nat), start + bs.length ≤ cap →
    Memory.within cap m = true → Memory.within cap (Memory.writeSeq m start bs) = true := by
  induction bs with
  | nil => intro m start _ h; exact h
  | cons b bs ih =>
    intro m start hb h
    simp only [List.length_cons] at hb
    exact ih (start + 1) (by omega) (Memory.within_write b (by omega) h)

/-- Two buffers in canonical form with the same bytes are equal: equal memories are equal data. -/
theorem Memory.ext_of_read : ∀ {m n : Memory}, Memory.wf m = true → Memory.wf n = true →
    (∀ i, Memory.read m i = Memory.read n i) → m = n := by
  have none_below : ∀ (m : Memory) (k : Nat), (∀ c ∈ m, k < c.1) → Memory.read m k = none := by
    intro m k
    induction m with
    | nil => intro _; rfl
    | cons d rest ih =>
      obtain ⟨j, d⟩ := d
      intro h
      have := h (j, d) List.mem_cons_self
      simp only [Memory.read]
      rw [if_neg (by simp only at this; omega)]
      exact ih fun c hc => h c (List.mem_cons_of_mem _ hc)
  intro m
  induction m with
  | nil =>
    intro n _ _ h
    cases n with
    | nil => rfl
    | cons d rest => have := h d.1; simp [Memory.read] at this
  | cons d rest ih =>
    obtain ⟨j, d⟩ := d
    intro n hm hn h
    cases n with
    | nil => have := h j; simp [Memory.read] at this
    | cons e rest' =>
      obtain ⟨k, e⟩ := e
      rw [Memory.wf_iff, List.pairwise_cons] at hm hn
      have hjk : j = k := by
        rcases Nat.lt_trichotomy j k with hlt | heq | hgt
        · have h0 := h j
          rw [none_below ((k, e) :: rest') j ?_] at h0
          · simp [Memory.read] at h0
          · intro c hc
            rcases List.mem_cons.mp hc with rfl | hc
            · exact hlt
            · exact Nat.lt_trans hlt (hn.1 c hc)
        · exact heq
        · have h0 := h k
          rw [none_below ((j, d) :: rest) k ?_] at h0
          · simp [Memory.read] at h0
          · intro c hc
            rcases List.mem_cons.mp hc with rfl | hc
            · exact hgt
            · exact Nat.lt_trans hgt (hm.1 c hc)
      subst hjk
      have hde : d = e := by simpa [Memory.read] using h j
      subst hde
      have : rest = rest' := by
        refine ih ((Memory.wf_iff _).mpr hm.2) ((Memory.wf_iff _).mpr hn.2) fun i => ?_
        by_cases hij : i = j
        · subst hij; rw [none_below _ _ hm.1, none_below _ _ hn.1]
        · simpa [Memory.read, hij] using h i
      rw [this]

end Sys2Proof.Machine
end

