-- ==== Sys2Proof/Laws/State.lean ====
section
/-! SUPPORT. One lemma per field per update of State, true by rfl, so that no proof unfolds a record update. -/

namespace Sys2Proof.Machine

@[simp] theorem State.setArg0_arg0 (s : State) (b : Byte) : (s.setArg0 b).arg0 = b := rfl
@[simp] theorem State.setArg0_arg1 (s : State) (b : Byte) : (s.setArg0 b).arg1 = s.arg1 := rfl
@[simp] theorem State.setArg0_arg2 (s : State) (b : Byte) : (s.setArg0 b).arg2 = s.arg2 := rfl
@[simp] theorem State.setArg0_ilen (s : State) (b : Byte) : (s.setArg0 b).ilen = s.ilen := rfl
@[simp] theorem State.setArg0_bank (s : State) (b : Byte) : (s.setArg0 b).bank = s.bank := rfl
@[simp] theorem State.setArg0_ibuf (s : State) (b : Byte) : (s.setArg0 b).ibuf = s.ibuf := rfl
@[simp] theorem State.setArg0_obuf (s : State) (b : Byte) : (s.setArg0 b).obuf = s.obuf := rfl
@[simp] theorem State.setArg0_cfg (s : State) (b : Byte) : (s.setArg0 b).cfg = s.cfg := rfl
@[simp] theorem State.setArg0_port (s : State) (b : Byte) : (s.setArg0 b).port = s.port := rfl
@[simp] theorem State.setArg0_reads (s : State) (b : Byte) : (s.setArg0 b).reads = s.reads := rfl
@[simp] theorem State.setArg0_draws (s : State) (b : Byte) : (s.setArg0 b).draws = s.draws := rfl

@[simp] theorem State.setArg1_arg0 (s : State) (b : Byte) : (s.setArg1 b).arg0 = s.arg0 := rfl
@[simp] theorem State.setArg1_arg1 (s : State) (b : Byte) : (s.setArg1 b).arg1 = b := rfl
@[simp] theorem State.setArg1_arg2 (s : State) (b : Byte) : (s.setArg1 b).arg2 = s.arg2 := rfl
@[simp] theorem State.setArg1_ilen (s : State) (b : Byte) : (s.setArg1 b).ilen = s.ilen := rfl
@[simp] theorem State.setArg1_bank (s : State) (b : Byte) : (s.setArg1 b).bank = s.bank := rfl
@[simp] theorem State.setArg1_ibuf (s : State) (b : Byte) : (s.setArg1 b).ibuf = s.ibuf := rfl
@[simp] theorem State.setArg1_obuf (s : State) (b : Byte) : (s.setArg1 b).obuf = s.obuf := rfl
@[simp] theorem State.setArg1_cfg (s : State) (b : Byte) : (s.setArg1 b).cfg = s.cfg := rfl
@[simp] theorem State.setArg1_port (s : State) (b : Byte) : (s.setArg1 b).port = s.port := rfl
@[simp] theorem State.setArg1_reads (s : State) (b : Byte) : (s.setArg1 b).reads = s.reads := rfl
@[simp] theorem State.setArg1_draws (s : State) (b : Byte) : (s.setArg1 b).draws = s.draws := rfl

@[simp] theorem State.setArg2_arg0 (s : State) (b : Byte) : (s.setArg2 b).arg0 = s.arg0 := rfl
@[simp] theorem State.setArg2_arg1 (s : State) (b : Byte) : (s.setArg2 b).arg1 = s.arg1 := rfl
@[simp] theorem State.setArg2_arg2 (s : State) (b : Byte) : (s.setArg2 b).arg2 = b := rfl
@[simp] theorem State.setArg2_ilen (s : State) (b : Byte) : (s.setArg2 b).ilen = s.ilen := rfl
@[simp] theorem State.setArg2_bank (s : State) (b : Byte) : (s.setArg2 b).bank = s.bank := rfl
@[simp] theorem State.setArg2_ibuf (s : State) (b : Byte) : (s.setArg2 b).ibuf = s.ibuf := rfl
@[simp] theorem State.setArg2_obuf (s : State) (b : Byte) : (s.setArg2 b).obuf = s.obuf := rfl
@[simp] theorem State.setArg2_cfg (s : State) (b : Byte) : (s.setArg2 b).cfg = s.cfg := rfl
@[simp] theorem State.setArg2_port (s : State) (b : Byte) : (s.setArg2 b).port = s.port := rfl
@[simp] theorem State.setArg2_reads (s : State) (b : Byte) : (s.setArg2 b).reads = s.reads := rfl
@[simp] theorem State.setArg2_draws (s : State) (b : Byte) : (s.setArg2 b).draws = s.draws := rfl

@[simp] theorem State.setIlen_arg0 (s : State) (w : Word) : (s.setIlen w).arg0 = s.arg0 := rfl
@[simp] theorem State.setIlen_arg1 (s : State) (w : Word) : (s.setIlen w).arg1 = s.arg1 := rfl
@[simp] theorem State.setIlen_arg2 (s : State) (w : Word) : (s.setIlen w).arg2 = s.arg2 := rfl
@[simp] theorem State.setIlen_ilen (s : State) (w : Word) : (s.setIlen w).ilen = w := rfl
@[simp] theorem State.setIlen_bank (s : State) (w : Word) : (s.setIlen w).bank = s.bank := rfl
@[simp] theorem State.setIlen_ibuf (s : State) (w : Word) : (s.setIlen w).ibuf = s.ibuf := rfl
@[simp] theorem State.setIlen_obuf (s : State) (w : Word) : (s.setIlen w).obuf = s.obuf := rfl
@[simp] theorem State.setIlen_cfg (s : State) (w : Word) : (s.setIlen w).cfg = s.cfg := rfl
@[simp] theorem State.setIlen_port (s : State) (w : Word) : (s.setIlen w).port = s.port := rfl
@[simp] theorem State.setIlen_reads (s : State) (w : Word) : (s.setIlen w).reads = s.reads := rfl
@[simp] theorem State.setIlen_draws (s : State) (w : Word) : (s.setIlen w).draws = s.draws := rfl

@[simp] theorem State.setBank_arg0 (s : State) (r : ResultBank) : (s.setBank r).arg0 = s.arg0 := rfl
@[simp] theorem State.setBank_arg1 (s : State) (r : ResultBank) : (s.setBank r).arg1 = s.arg1 := rfl
@[simp] theorem State.setBank_arg2 (s : State) (r : ResultBank) : (s.setBank r).arg2 = s.arg2 := rfl
@[simp] theorem State.setBank_ilen (s : State) (r : ResultBank) : (s.setBank r).ilen = s.ilen := rfl
@[simp] theorem State.setBank_bank (s : State) (r : ResultBank) : (s.setBank r).bank = r := rfl
@[simp] theorem State.setBank_ibuf (s : State) (r : ResultBank) : (s.setBank r).ibuf = s.ibuf := rfl
@[simp] theorem State.setBank_obuf (s : State) (r : ResultBank) : (s.setBank r).obuf = s.obuf := rfl
@[simp] theorem State.setBank_cfg (s : State) (r : ResultBank) : (s.setBank r).cfg = s.cfg := rfl
@[simp] theorem State.setBank_port (s : State) (r : ResultBank) : (s.setBank r).port = s.port := rfl
@[simp] theorem State.setBank_reads (s : State) (r : ResultBank) : (s.setBank r).reads = s.reads := rfl
@[simp] theorem State.setBank_draws (s : State) (r : ResultBank) : (s.setBank r).draws = s.draws := rfl

@[simp] theorem State.setIbuf_arg0 (s : State) (m : Memory) : (s.setIbuf m).arg0 = s.arg0 := rfl
@[simp] theorem State.setIbuf_arg1 (s : State) (m : Memory) : (s.setIbuf m).arg1 = s.arg1 := rfl
@[simp] theorem State.setIbuf_arg2 (s : State) (m : Memory) : (s.setIbuf m).arg2 = s.arg2 := rfl
@[simp] theorem State.setIbuf_ilen (s : State) (m : Memory) : (s.setIbuf m).ilen = s.ilen := rfl
@[simp] theorem State.setIbuf_bank (s : State) (m : Memory) : (s.setIbuf m).bank = s.bank := rfl
@[simp] theorem State.setIbuf_ibuf (s : State) (m : Memory) : (s.setIbuf m).ibuf = m := rfl
@[simp] theorem State.setIbuf_obuf (s : State) (m : Memory) : (s.setIbuf m).obuf = s.obuf := rfl
@[simp] theorem State.setIbuf_cfg (s : State) (m : Memory) : (s.setIbuf m).cfg = s.cfg := rfl
@[simp] theorem State.setIbuf_port (s : State) (m : Memory) : (s.setIbuf m).port = s.port := rfl
@[simp] theorem State.setIbuf_reads (s : State) (m : Memory) : (s.setIbuf m).reads = s.reads := rfl
@[simp] theorem State.setIbuf_draws (s : State) (m : Memory) : (s.setIbuf m).draws = s.draws := rfl

@[simp] theorem State.setObuf_arg0 (s : State) (m : Memory) : (s.setObuf m).arg0 = s.arg0 := rfl
@[simp] theorem State.setObuf_arg1 (s : State) (m : Memory) : (s.setObuf m).arg1 = s.arg1 := rfl
@[simp] theorem State.setObuf_arg2 (s : State) (m : Memory) : (s.setObuf m).arg2 = s.arg2 := rfl
@[simp] theorem State.setObuf_ilen (s : State) (m : Memory) : (s.setObuf m).ilen = s.ilen := rfl
@[simp] theorem State.setObuf_bank (s : State) (m : Memory) : (s.setObuf m).bank = s.bank := rfl
@[simp] theorem State.setObuf_ibuf (s : State) (m : Memory) : (s.setObuf m).ibuf = s.ibuf := rfl
@[simp] theorem State.setObuf_obuf (s : State) (m : Memory) : (s.setObuf m).obuf = m := rfl
@[simp] theorem State.setObuf_cfg (s : State) (m : Memory) : (s.setObuf m).cfg = s.cfg := rfl
@[simp] theorem State.setObuf_port (s : State) (m : Memory) : (s.setObuf m).port = s.port := rfl
@[simp] theorem State.setObuf_reads (s : State) (m : Memory) : (s.setObuf m).reads = s.reads := rfl
@[simp] theorem State.setObuf_draws (s : State) (m : Memory) : (s.setObuf m).draws = s.draws := rfl

@[simp] theorem State.setPort_arg0 (s : State) (es : List HostEvent) : (s.setPort es).arg0 = s.arg0 := rfl
@[simp] theorem State.setPort_arg1 (s : State) (es : List HostEvent) : (s.setPort es).arg1 = s.arg1 := rfl
@[simp] theorem State.setPort_arg2 (s : State) (es : List HostEvent) : (s.setPort es).arg2 = s.arg2 := rfl
@[simp] theorem State.setPort_ilen (s : State) (es : List HostEvent) : (s.setPort es).ilen = s.ilen := rfl
@[simp] theorem State.setPort_bank (s : State) (es : List HostEvent) : (s.setPort es).bank = s.bank := rfl
@[simp] theorem State.setPort_ibuf (s : State) (es : List HostEvent) : (s.setPort es).ibuf = s.ibuf := rfl
@[simp] theorem State.setPort_obuf (s : State) (es : List HostEvent) : (s.setPort es).obuf = s.obuf := rfl
@[simp] theorem State.setPort_cfg (s : State) (es : List HostEvent) : (s.setPort es).cfg = s.cfg := rfl
@[simp] theorem State.setPort_port (s : State) (es : List HostEvent) : (s.setPort es).port = es := rfl
@[simp] theorem State.setPort_reads (s : State) (es : List HostEvent) : (s.setPort es).reads = s.reads := rfl
@[simp] theorem State.setPort_draws (s : State) (es : List HostEvent) : (s.setPort es).draws = s.draws := rfl

@[simp] theorem State.pushRead_arg0 (s : State) (v : ReadData) : (s.pushRead v).arg0 = s.arg0 := rfl
@[simp] theorem State.pushRead_arg1 (s : State) (v : ReadData) : (s.pushRead v).arg1 = s.arg1 := rfl
@[simp] theorem State.pushRead_arg2 (s : State) (v : ReadData) : (s.pushRead v).arg2 = s.arg2 := rfl
@[simp] theorem State.pushRead_ilen (s : State) (v : ReadData) : (s.pushRead v).ilen = s.ilen := rfl
@[simp] theorem State.pushRead_bank (s : State) (v : ReadData) : (s.pushRead v).bank = s.bank := rfl
@[simp] theorem State.pushRead_ibuf (s : State) (v : ReadData) : (s.pushRead v).ibuf = s.ibuf := rfl
@[simp] theorem State.pushRead_obuf (s : State) (v : ReadData) : (s.pushRead v).obuf = s.obuf := rfl
@[simp] theorem State.pushRead_cfg (s : State) (v : ReadData) : (s.pushRead v).cfg = s.cfg := rfl
@[simp] theorem State.pushRead_port (s : State) (v : ReadData) : (s.pushRead v).port = s.port := rfl
@[simp] theorem State.pushRead_reads (s : State) (v : ReadData) : (s.pushRead v).reads = s.reads ++ [v] := rfl
@[simp] theorem State.pushRead_draws (s : State) (v : ReadData) : (s.pushRead v).draws = s.draws := rfl

@[simp] theorem State.countDraw_arg0 (s : State) : (s.countDraw).arg0 = s.arg0 := rfl
@[simp] theorem State.countDraw_arg1 (s : State) : (s.countDraw).arg1 = s.arg1 := rfl
@[simp] theorem State.countDraw_arg2 (s : State) : (s.countDraw).arg2 = s.arg2 := rfl
@[simp] theorem State.countDraw_ilen (s : State) : (s.countDraw).ilen = s.ilen := rfl
@[simp] theorem State.countDraw_bank (s : State) : (s.countDraw).bank = s.bank := rfl
@[simp] theorem State.countDraw_ibuf (s : State) : (s.countDraw).ibuf = s.ibuf := rfl
@[simp] theorem State.countDraw_obuf (s : State) : (s.countDraw).obuf = s.obuf := rfl
@[simp] theorem State.countDraw_cfg (s : State) : (s.countDraw).cfg = s.cfg := rfl
@[simp] theorem State.countDraw_port (s : State) : (s.countDraw).port = s.port := rfl
@[simp] theorem State.countDraw_reads (s : State) : (s.countDraw).reads = s.reads := rfl
@[simp] theorem State.countDraw_draws (s : State) : (s.countDraw).draws = s.draws + 1 := rfl

end Sys2Proof.Machine
end

