-- ==== Sys2Proof/Laws/Ops.lean ====
section
/-! SUPPORT. One lemma per shared operation that says once everything it can do: how a command ends, how a command
over the input sequence goes, what a host event does, and what one step does. -/

namespace Sys2Proof.Machine

/-- The error completion: only the result bank is written (60_exceptions.md R241). -/
theorem raiseError_eq (e : ErrorCode) (s : State) : raiseError e s = { s with bank := errorBank e } := rfl

/-- The success completion: only the result bank and OBUF are written (10_state.md R46). -/
theorem complete_eq (r : ResultBank) (out : List Byte) (s : State) :
    complete r out s = { s with bank := successBank r out, obuf := Memory.writeSeq s.obuf 0 out } := rfl

theorem finish_ok (r : ResultBank) (out : List Byte) (s : State) : finish (.ok (r, out)) s = complete r out s := rfl

theorem finish_error (e : ErrorCode) (s : State) : finish (.error e) s = raiseError e s := rfl

/-- However a command ends, it is with an error or with its outputs. -/
theorem finish_cases (r : Except ErrorCode (ResultBank × List Byte)) (s : State) :
    (∃ e, r = .error e ∧ finish r s = raiseError e s) ∨
    (∃ bank out, r = .ok (bank, out) ∧ finish r s = complete bank out s) := by
  cases r with
  | error e => exact .inl ⟨e, rfl, rfl⟩
  | ok p => exact .inr ⟨p.1, p.2, rfl, rfl⟩

/-- Nothing but the result bank and OBUF changes when a command ends. -/
theorem finish_eq (r : Except ErrorCode (ResultBank × List Byte)) (s : State) :
    finish r s = { s with bank := (finish r s).bank, obuf := (finish r s).obuf } := by
  cases r <;> rfl

/-- A byte of OBUF after a success: the output below its length, the old byte elsewhere. -/
theorem read_complete_obuf (r : ResultBank) (out : List Byte) (s : State) (i : Nat) :
    Memory.read (complete r out s).obuf i = if i < out.length then out[i]? else Memory.read s.obuf i := by
  simp [complete_eq, Memory.read_writeSeq]

/-- A command over the input sequence does one of three things: BadLength, the fault of a byte with no value, or
what `result` says of the input sequence. -/
theorem runOnInput_cases (s : State) (result : List Byte → Except ErrorCode (ResultBank × List Byte)) :
    (s.cfg.maxLen < s.ilen.toNat ∧ runOnInput s result = .next (raiseError .badLength s)) ∨
    (s.ilen.toNat ≤ s.cfg.maxLen ∧ (∃ i, i < s.ilen.toNat ∧ Memory.read s.ibuf i = none) ∧
      runOnInput s result = .fault .unwrittenInputByte) ∨
    (∃ bs, s.ilen.toNat ≤ s.cfg.maxLen ∧ bs.length = s.ilen.toNat ∧
      (∀ i, i < s.ilen.toNat → Memory.read s.ibuf i = bs[i]?) ∧
      runOnInput s result = .next (finish (result bs) s)) := by
  unfold runOnInput
  by_cases h : s.cfg.maxLen < s.ilen.toNat
  · exact .inl ⟨h, by rw [if_pos h]⟩
  · rw [if_neg h]
    cases hi : inputSequence s with
    | none =>
      have := (Memory.readSeq_eq_none_iff s.ibuf s.ilen.toNat 0).mp hi
      simp only [Nat.zero_add] at this
      exact .inr (.inl ⟨Nat.le_of_not_lt h, this, rfl⟩)
    | some bs =>
      have := (Memory.readSeq_eq_some_iff s.ibuf s.ilen.toNat 0 bs).mp hi
      simp only [Nat.zero_add] at this
      exact .inr (.inr ⟨bs, Nat.le_of_not_lt h, this.1, this.2, rfl⟩)

/-- A command over the input sequence `bs` ends as `result bs` says. -/
theorem runOnInput_of_input {s : State} {bs : List Byte} (hl : s.ilen.toNat = bs.length)
    (hm : bs.length ≤ s.cfg.maxLen) (hb : ∀ i, i < bs.length → Memory.read s.ibuf i = bs[i]?)
    (result : List Byte → Except ErrorCode (ResultBank × List Byte)) :
    runOnInput s result = .next (finish (result bs) s) := by
  have hi : inputSequence s = some bs :=
    (Memory.readSeq_eq_some_iff s.ibuf s.ilen.toNat 0 bs).mpr ⟨hl.symm, by simpa [hl] using hb⟩
  unfold runOnInput
  rw [if_neg (by omega), hi]

/-- A length beyond IBUF ends the command with BadLength (60_exceptions.md R246). -/
theorem runOnInput_badLength {s : State} (h : s.cfg.maxLen < s.ilen.toNat)
    (result : List Byte → Except ErrorCode (ResultBank × List Byte)) :
    runOnInput s result = .next (raiseError .badLength s) := by
  unfold runOnInput; rw [if_pos h]

/-- Every command ends as a `finish` of its state, or with the fault of an input byte with no value. -/
theorem exec_cases (i : Instr) (s : State) :
    (∃ r, exec i s = .next (finish r s)) ∨ exec i s = .fault .unwrittenInputByte := by
  have on : ∀ result, (∃ r, runOnInput s result = .next (finish r s)) ∨
      runOnInput s result = .fault .unwrittenInputByte := by
    intro result
    rcases runOnInput_cases s result with ⟨_, h⟩ | ⟨_, _, h⟩ | ⟨bs, _, _, _, h⟩
    · exact .inl ⟨.error .badLength, h⟩
    · exact .inr h
    · exact .inl ⟨_, h⟩
  cases i with
  | dpenc => exact .inl ⟨_, rfl⟩
  | dpdec => exact .inl ⟨_, rfl⟩
  | cksum => exact on _
  | build => exact on _
  | parse => exact on _

/-- A command word runs its command, or gives the error completion with IllegalCommand (30_encoding.md R104). -/
theorem runCommandWord_cases (d : Word) (s : State) :
    (∃ i, decode d = .ok i ∧ runCommandWord d s = exec i s) ∨
    (∃ op, decode d = .error (.illegalOpcode op) ∧ runCommandWord d s = .next (raiseError .illegalCommand s)) := by
  unfold runCommandWord
  cases h : decode d with
  | ok i => exact .inl ⟨i, rfl, rfl⟩
  | error e => cases e with
    | illegalOpcode op => exact .inr ⟨op, rfl, rfl⟩

/-- A host read of a buffer byte: its value, 0x00 outside the buffer, or a free byte where it holds none. -/
theorem readBufferByte_cases (m : Memory) (cap i : Nat) (s : State) :
    (∃ b, i < cap ∧ Memory.read m i = some b ∧ readBufferByte m cap i s = s.pushRead (.byte b)) ∨
    (i < cap ∧ Memory.read m i = none ∧
      readBufferByte m cap i s = (s.pushRead (.byte (Config.freeByte s.draws))).countDraw) ∨
    (cap ≤ i ∧ readBufferByte m cap i s = s.pushRead (.byte 0x00)) := by
  unfold readBufferByte
  by_cases h : i < cap
  · rw [if_pos h]
    cases hr : Memory.read m i with
    | some b => exact .inl ⟨b, h, rfl, rfl⟩
    | none => exact .inr (.inl ⟨h, rfl, rfl⟩)
  · rw [if_neg h]; exact .inr (.inr ⟨Nat.le_of_not_lt h, rfl⟩)

/-- A host write to IBUF: the byte inside the buffer, nothing outside it (20_memory.md R72). -/
theorem writeInputByte_cases (i : Nat) (b : Byte) (s : State) :
    (i < s.cfg.maxLen ∧ writeInputByte i b s = s.setIbuf (Memory.write s.ibuf i b)) ∨
    (s.cfg.maxLen ≤ i ∧ writeInputByte i b s = s) := by
  unfold writeInputByte
  by_cases h : i < s.cfg.maxLen
  · exact .inl ⟨h, by rw [if_pos h]⟩
  · exact .inr ⟨Nat.le_of_not_lt h, by rw [if_neg h]⟩

/-- A host write to a register other than CMD: one of the four operand registers, or nothing (10_state.md R44). -/
theorem writeRegister_cases (a : Byte) (d : Word) (s : State) :
    (a = 1 ∧ writeRegister a d s = s.setArg0 (lowByte d)) ∨ (a = 2 ∧ writeRegister a d s = s.setArg1 (lowByte d)) ∨
    (a = 3 ∧ writeRegister a d s = s.setArg2 (lowByte d)) ∨ (a = 4 ∧ writeRegister a d s = s.setIlen d) ∨
    (a ≠ 1 ∧ a ≠ 2 ∧ a ≠ 3 ∧ a ≠ 4 ∧ writeRegister a d s = s) := by
  by_cases h1 : a = 1
  · subst h1; exact .inl ⟨rfl, rfl⟩
  by_cases h2 : a = 2
  · subst h2; exact .inr (.inl ⟨rfl, rfl⟩)
  by_cases h3 : a = 3
  · subst h3; exact .inr (.inr (.inl ⟨rfl, rfl⟩))
  by_cases h4 : a = 4
  · subst h4; exact .inr (.inr (.inr (.inl ⟨rfl, rfl⟩)))
  refine .inr (.inr (.inr (.inr ⟨h1, h2, h3, h4, ?_⟩)))
  unfold writeRegister
  split
  · rename_i h; exact (h1 (BitVec.eq_of_toNat_eq h)).elim
  · rename_i h; exact (h2 (BitVec.eq_of_toNat_eq h)).elim
  · rename_i h; exact (h3 (BitVec.eq_of_toNat_eq h)).elim
  · rename_i h; exact (h4 (BitVec.eq_of_toNat_eq h)).elim
  · rfl

/-- The external reset: every register and buffer as at reset, the parameters and the host's own side kept. -/
theorem applyReset_eq (s : State) :
    applyReset s = { arg0 := 0, arg1 := 0, arg2 := 0, ilen := 0, bank := ResultBank.zero, ibuf := [], obuf := []
                     cfg := s.cfg, port := s.port, reads := s.reads, draws := s.draws } := rfl

theorem step_idle {s : State} (h : s.port = []) : step s = .next s := by unfold step; rw [h]

theorem step_event {s : State} {e : HostEvent} {rest : List HostEvent} (h : s.port = e :: rest) :
    step s = handleEvent e (s.setPort rest) := by unfold step; rw [h]

/-- Everything one step can do: nothing is pending, or the next event is a register read, a command write, another
register write, a buffer access or the external reset. -/
theorem step_cases (s : State) :
    (s.port = [] ∧ step s = .next s) ∨
    (∃ a rest, s.port = .transaction (.rdreg a) :: rest ∧
      step s = .next ((s.setPort rest).pushRead (.reg (readRegister a s)))) ∨
    (∃ d rest, s.port = .transaction (.wrreg 0x00 d) :: rest ∧ step s = runCommandWord d (s.setPort rest)) ∨
    (∃ a d rest, a ≠ 0x00 ∧ s.port = .transaction (.wrreg a d) :: rest ∧
      step s = .next (writeRegister a d (s.setPort rest))) ∨
    (∃ i rest, s.port = .transaction (.rdib i) :: rest ∧
      step s = .next (readBufferByte s.ibuf s.cfg.maxLen i.toNat (s.setPort rest))) ∨
    (∃ i b rest, s.port = .transaction (.wrib i b) :: rest ∧
      step s = .next (writeInputByte i.toNat b (s.setPort rest))) ∨
    (∃ i rest, s.port = .transaction (.rdob i) :: rest ∧
      step s = .next (readBufferByte s.obuf s.cfg.obufCap i.toNat (s.setPort rest))) ∨
    (∃ rest, s.port = .reset :: rest ∧ step s = .next (applyReset (s.setPort rest))) := by
  cases hp : s.port with
  | nil => exact .inl ⟨rfl, step_idle hp⟩
  | cons e rest =>
    refine .inr ?_
    have hs := step_event hp
    cases e with
    | reset => exact .inr (.inr (.inr (.inr (.inr (.inr ⟨rest, rfl, hs⟩)))))
    | transaction t =>
      cases t with
      | rdreg a => exact .inl ⟨a, rest, rfl, hs⟩
      | wrreg a d =>
        by_cases ha : a = 0x00
        · subst ha; exact .inr (.inl ⟨d, rest, rfl, hs⟩)
        · refine .inr (.inr (.inl ⟨a, d, rest, ha, rfl, ?_⟩))
          rw [hs]; simp only [handleEvent, transact]; rw [if_neg ha]
      | rdib i => exact .inr (.inr (.inr (.inl ⟨i, rest, rfl, hs⟩)))
      | wrib i b => exact .inr (.inr (.inr (.inr (.inl ⟨i, b, rest, rfl, hs⟩))))
      | rdob i => exact .inr (.inr (.inr (.inr (.inr (.inl ⟨i, rest, rfl, hs⟩)))))

end Sys2Proof.Machine
end

