-- ==== Sys2Proof/Laws/Codec.lean ====
section
/-! SUPPORT. Small lemmas about the codec's pure functions and about the two ways a command completes, so that a
proof cites them and unfolds nothing. -/

namespace Sys2Proof.Machine

/-- The opcode is the command word modulo 256 (30_encoding.md R101). -/
theorem opcodeField_toNat (d : Word) : (opcodeField d).toNat = d.toNat % 256 := by simp [opcodeField]

/-- `d[7:0]` as a number (20_memory.md R71). -/
theorem lowByte_toNat (d : Word) : (lowByte d).toNat = d.toNat % 256 := by simp [lowByte]

/-- `s16` is exact on -32768..32767 (00_scope.md R12). -/
theorem fromS16_s16 {v : Int} (low : -32768 ≤ v) (high : v < 32768) : fromS16 (s16 v) = v := by
  unfold fromS16 s16; rw [BitVec.toInt_ofInt]; simp [Int.bmod]; omega

/-- A byte as a signed 16-bit number is its zero extension. -/
theorem s16_byte (b : Byte) : s16 (b.toNat : Int) = zext16 b := by
  have := b.isLt
  apply BitVec.eq_of_toNat_eq; simp [s16, zext16]

/-- FLAGS in the form of the statements (10_state.md R37). -/
theorem flagsOf_eq_flagBits (dig ckp : Bool) : flagsOf dig ckp = flagBits dig ckp := by
  cases dig <;> cases ckp <;> rfl

/-- Bits 7:2 of FLAGS are 0 (10_state.md R37). -/
theorem flagsOf_le (dig ckp : Bool) : (flagsOf dig ckp).toNat ≤ 3 := by cases dig <;> cases ckp <;> decide

theorem all_isAscii_iff (bs : List Byte) : bs.all isAscii = true ↔ ∀ b ∈ bs, b.toNat ≤ 0x7F := by simp [isAscii]

theorem byteSum_append (xs ys : List Byte) : byteSum (xs ++ ys) = byteSum xs + byteSum ys := by
  induction xs with
  | nil => simp [byteSum]
  | cons x xs ih => simp [byteSum, ih, Nat.add_assoc]

/-- Replacing one byte changes the sum by the difference of the two bytes. -/
theorem byteSum_set (bs : List Byte) (i : Nat) (b : Byte) (h : i < bs.length) :
    byteSum (bs.set i b) + (byteAt bs i).toNat = byteSum bs + b.toNat := by
  induction bs generalizing i with
  | nil => simp at h
  | cons c bs ih =>
    cases i with
    | zero => simp [byteSum, byteAt]; omega
    | succ i =>
      have := ih i (by simpa using h)
      simp [byteSum, byteAt] at this ⊢; omega

theorem checksum_toNat (bs : List Byte) : (checksum bs).toNat = byteSum bs % 256 := by simp [checksum]

@[simp] theorem hexPair_length (c : Byte) : (hexPair c).length = 2 := rfl

theorem byteAt_set (f : List Byte) (i j : Nat) (b : Byte) (h : i < f.length) :
    byteAt (f.set i b) j = if i = j then b else byteAt f j := by
  unfold byteAt
  by_cases hij : i = j
  · subst hij; simp [h]
  · simp [hij]

/-- A slice of two bytes. -/
theorem slice_two (f : List Byte) (a : Nat) (h : a + 2 ≤ f.length) :
    slice f a (a + 2) = [byteAt f a, byteAt f (a + 1)] := by
  unfold slice byteAt
  apply List.ext_getElem
  · simp; omega
  · intro i h1 h2
    simp at h2
    interval_cases i <;> simp [List.getElem_take] <;> rw [List.getElem?_eq_getElem (by omega)] <;> rfl

theorem slice_set_inside (f : List Byte) (a c i : Nat) (b : Byte) (ha : a ≤ i) :
    slice (f.set i b) a c = (slice f a c).set (i - a) b := by
  unfold slice; rw [List.take_set, List.drop_set, if_neg (by omega)]

theorem slice_set_after (f : List Byte) (a c i : Nat) (b : Byte) (hc : c ≤ i) :
    slice (f.set i b) a c = slice f a c := by
  unfold slice; rw [List.take_set_of_le hc]

/-- PARSE's result from the decoder's: its error, an Ack or a Nak (43_decoder.md R216). -/
theorem parseResult_cases (p : Params) (f : List Byte) :
    (∃ e, parseResponse p f = .error e ∧ parseResult p f = .error e) ∨
    (∃ r v, parseResponse p f = .ok r ∧ r.content = .ack v ∧
      parseResult p f = .ok ({ responseBank r with resKind := 1 }, v)) ∨
    (∃ r c d, parseResponse p f = .ok r ∧ r.content = .nak c d ∧
      parseResult p f = .ok ({ responseBank r with resKind := 2, resCode := c, resDesc := nakDescIndex d }, [c])) := by
  unfold parseResult
  cases h : parseResponse p f with
  | error e => exact .inl ⟨e, rfl, rfl⟩
  | ok r =>
    cases hc : r.content with
    | ack v => exact .inr (.inl ⟨r, v, rfl, hc, by simp only [hc]⟩)
    | nak c d => exact .inr (.inr ⟨r, c, d, rfl, hc, by simp only [hc]⟩)

/-- An error leaves the error completion (60_exceptions.md R241). -/
theorem raiseError_completion (e : ErrorCode) (s : State) : ErrorCompletion s (raiseError e s) (errorStatus e) :=
  ⟨rfl, ⟨rfl, rfl, rfl, rfl, rfl, rfl, rfl, rfl, rfl⟩, fun _ _ => rfl⟩

/-- A success writes nothing but the result bank and its output bytes (10_state.md R46). -/
theorem complete_frame (r : ResultBank) (out : List Byte) (s : State) :
    CommandFrame s (complete r out s) out.length := by
  refine ⟨⟨rfl, rfl, rfl, rfl, rfl, rfl, rfl, rfl, rfl⟩, fun i hi => ?_⟩
  unfold obufByte; rw [read_complete_obuf, if_neg (by omega)]

/-- A success leaves its output bytes in OBUF (10_state.md R48). -/
theorem complete_obufHolds (r : ResultBank) (out : List Byte) (s : State) : ObufHolds (complete r out s) out := by
  intro i hi; unfold obufByte; rw [read_complete_obuf, if_pos hi]

end Sys2Proof.Machine
end

