-- ==== Sys2Proof/Laws/PerInstr.lean ====
section
/-! SUPPORT. Statements made per instruction, one lemma per constructor of Instr. -/

namespace Sys2Proof.Laws

/-- The decoder reads the command back from its encoding (spec/30_encoding.md R103). -/
def EncodedCommand.Statement (i : Instr) : Prop := i.wf = true → decode (encode i) = .ok i

theorem EncodedCommand.dpenc : EncodedCommand.Statement .dpenc := fun _ => rfl
theorem EncodedCommand.dpdec : EncodedCommand.Statement .dpdec := fun _ => rfl
theorem EncodedCommand.cksum : EncodedCommand.Statement .cksum := fun _ => rfl
theorem EncodedCommand.build : EncodedCommand.Statement .build := fun _ => rfl
theorem EncodedCommand.parse : EncodedCommand.Statement .parse := fun _ => rfl

end Sys2Proof.Laws
end

