-- ==== Sys2Proof/Tests/Slice0.lean ====
section
/-! SUPPORT. Tests on small states, their expected results taken from spec/95_test_vectors.md or worked out from the
rules, and for each statement with hypotheses a witness that something meets them, at the boundary values. -/

namespace Sys2Proof.Tests

open Sys2Proof Sys2Proof.Machine

/-! ## Helpers -/

/-- A block after reset, with the parameters `p`. -/
def block (p : Params) : State := { State.reset with cfg := p }

/-- The vectors' block: `P_MAXLEN = 64` and the default parameters. -/
def block64 : State := block (Params.defaults 64)

/-- The smallest block, `P_MAXLEN = 10`. -/
def block10 : State := block (Params.defaults 10)

/-- A block with `bs` as its input sequence. -/
def load (bs : List Byte) (s : State) : State :=
  { s with ilen := BitVec.ofNat 16 bs.length, ibuf := Memory.writeSeq [] 0 bs }

/-- A block with the three operand registers set. -/
def args (a0 a1 a2 : Byte) (s : State) : State := { s with arg0 := a0, arg1 := a1, arg2 := a2 }

/-- A block with these transactions pending. -/
def pending (ts : List HostTransaction) (s : State) : State := { s with port := ts.map .transaction }

/-- `P_STRICT_DIGITS` on. -/
def strict (s : State) : State := { s with cfg := { s.cfg with strictDigits := true } }

/-- `P_ACK_ASCII_STRICT` off. -/
def passing (s : State) : State := { s with cfg := { s.cfg with ackAsciiStrict := false } }

/-- The next state, where there is one. -/
def nextOf : Host.Outcome State Fault Refusal → Option State
  | .next t => some t
  | .fault _ => none
  | .refused _ => none

/-- What a run shows of a command: the result bank and `OBUF[0..OLEN)`. -/
def resultOf (o : Host.Outcome State Fault Refusal) : Option (ResultBank × Option (List Byte)) :=
  (nextOf o).map fun t => (t.bank, (observe t).out)

/-- The status a command leaves. -/
def statusOf (o : Host.Outcome State Fault Refusal) : Option Byte := (nextOf o).map fun t => t.bank.status

/-- `k` steps. -/
def run : Nat → State → Option State
  | 0, s => some s
  | k + 1, s =>
    match step s with
    | .next t => run k t
    | .fault _ => none
    | .refused _ => none

/-- The frame of S4 (95_test_vectors.md): ACK, TID 02, PID 01, ADR 00, "22.3", "E8". -/
def frameS4 : List Byte := [0x06, 0x30, 0x32, 0x30, 0x31, 0x30, 0x30, 0x32, 0x32, 0x2E, 0x33, 0x45, 0x38, 0x03]

/-- "22.3". -/
def text223 : List Byte := [0x32, 0x32, 0x2E, 0x33]

/-! ## Well-formedness smoke: an ill-formed term for each check, and terms at the ends of the range (R7) -/

theorem test_wf_refuses_maxLen_9 : (Params.defaults 9).wf = false := by decide
theorem test_wf_refuses_maxLen_65526 : (Params.defaults 65526).wf = false := by decide
theorem test_wf_accepts_maxLen_10 : (Params.defaults 10).wf = true := by decide
theorem test_wf_accepts_maxLen_65525 : (Params.defaults 65525).wf = true := by decide

/-- The parameters of `State.reset` are in range, whatever they are. -/
theorem test_wf_config_params : Config.params.wf = true := by
  have := Config.maxLenAboveMin.isLt
  simp [Params.wf, Config.params]
  omega

theorem test_memory_wf_refuses_unsorted : Memory.wf [(1, 0x00), (0, 0x00)] = false := by decide
theorem test_memory_wf_refuses_repeat : Memory.wf [(1, 0x00), (1, 0x00)] = false := by decide
theorem test_memory_within_refuses_outside : Memory.within 10 [(10, 0x00)] = false := by decide

/-! ## Decoding: every command's word written out from R101 and R103 -/

theorem test_decode_dpenc : decode 0b0000000000000001 = .ok .dpenc := by decide
theorem test_decode_dpdec : decode 0b0000000000000010 = .ok .dpdec := by decide
theorem test_decode_cksum : decode 0b0000000000000011 = .ok .cksum := by decide
theorem test_decode_build : decode 0b0000000000000100 = .ok .build := by decide
theorem test_decode_parse : decode 0b0000000000000101 = .ok .parse := by decide
theorem test_decode_ignores_high_byte : decode 0b1111111100000101 = .ok .parse := by decide
theorem test_decode_illegal_00 : decode 0x0100 = .error (.illegalOpcode 0x00) := by decide
theorem test_decode_illegal_06 : decode 0x0006 = .error (.illegalOpcode 0x06) := by decide
theorem test_decode_illegal_ff : decode 0x00FF = .error (.illegalOpcode 0xFF) := by decide
theorem test_decode_all_bits_compared : decode 0x0081 = .error (.illegalOpcode 0x81) := by decide
theorem test_table_word : decodeTableWord 8 0x0304 = some .build ∧ decodeTableWord 16 0x0305 = some .parse := by decide

/-! ## Commands (95_test_vectors.md, section 2) -/

/-- 2.1: ARG0 = 7. -/
theorem test_dpenc_7 : resultOf (exec .dpenc (args 7 0 0 block64)) =
    some ({ ResultBank.zero with olen := 2 }, some [0x30, 0x37]) := by decide

/-- 2.1: ARG0 = 100; 2.6: what an earlier command left in OBUF stays. -/
theorem test_dpenc_100 : (nextOf (exec .dpenc { args 100 0 0 block64 with obuf := [(0, 0x30), (1, 0x37)] })).map
    (fun t => (t.bank, t.obuf)) = some ({ ResultBank.zero with status := 0x06 }, [(0, 0x30), (1, 0x37)]) := by decide

/-- 2.2: 2F 3B gives 1 but no DIG. -/
theorem test_dpdec_not_digits : resultOf (exec .dpdec (args 0x2F 0x3B 0 block64)) =
    some ({ ResultBank.zero with resVal := 0x0001 }, some []) := by decide

/-- 2.2: 00 00, 20 35, FF FF and 39 39. -/
theorem test_dpdec_values :
    [(0x00, 0x00), (0x20, 0x35), (0xFF, 0xFF), (0x39, 0x39)].map (fun x : Byte × Byte =>
      (nextOf (exec .dpdec (args x.1 x.2 0 block64))).map fun t => (t.bank.resVal, t.bank.flags)) =
    [some (0xFDF0, 0x00), some (0xFF65, 0x00), some (0x08E5, 0x00), some (0x0063, 0x01)] := by decide

/-- 2.3: the region of S4. -/
theorem test_cksum_e8 : resultOf (exec .cksum (load [0x30, 0x32, 0x30, 0x31, 0x30, 0x30, 0x32, 0x32, 0x2E, 0x33] block64)) =
    some ({ ResultBank.zero with olen := 2, resVal := 0x00E8 }, some [0x45, 0x38]) := by decide

/-- 2.3: 80 80 sums to 256; ILEN = P_MAXLEN + 1 is BadLength. -/
theorem test_cksum_wrap_and_badLength :
    resultOf (exec .cksum (load [0x80, 0x80] block64)) = some ({ ResultBank.zero with olen := 2 }, some [0x30, 0x30]) ∧
    resultOf (exec .cksum { block64 with ilen := 65 }) = some ({ ResultBank.zero with status := 0x0B }, some []) := by
  decide

/-- 2.4: 2 1 0 with "22.3". -/
theorem test_build_checksummed : resultOf (exec .build (args 2 1 0 (load text223 block64))) =
    some ({ ResultBank.zero with olen := 14, flags := 0x02, resVal := 0x00E8 }, some (0x02 :: frameS4.drop 1)) := by
  decide

/-- 2.4: 3 2 4 with "x" carries no CRC; 100 with a non-ASCII item is a range error; 61 80 is an encoding error. -/
theorem test_build_no_crc_and_errors :
    resultOf (exec .build (args 3 2 4 (load [0x78] block64))) =
      some ({ ResultBank.zero with olen := 9 }, some [0x02, 0x30, 0x33, 0x30, 0x32, 0x30, 0x34, 0x78, 0x03]) ∧
    statusOf (exec .build (args 100 0 0 (load [0x80] block64))) = some 0x06 ∧
    statusOf (exec .build (load [0x61, 0x80] block64)) = some 0x07 := by decide

/-- 2.5 rows 2 and 25. -/
theorem test_parse_ack :
    resultOf (exec .parse (load frameS4 block64)) =
      some ({ ResultBank.zero with olen := 4, resKind := 1, resTid := 2, resPid := 1, flags := 0x03, resVal := 0x00E8 },
        some text223) ∧
    resultOf (exec .parse (load [0x06, 0x41, 0x42, 0x30, 0x30, 0x20, 0x35, 0x76, 0x03] block64)) =
      some ({ ResultBank.zero with olen := 1, resKind := 1, resTid := 0x00BC, resAdr := 0xFF65 }, some [0x76]) := by decide

/-- 2.5 rows 4, 8, 12, 14, 16, 20, 22, 24, 25s, 28, 28p. -/
theorem test_parse_nak_and_errors :
    resultOf (exec .parse (load [0x15, 0x30, 0x33, 0x30, 0x31, 0x30, 0x37, 0x49, 0x37, 0x34, 0x03] block64)) =
      some ({ ResultBank.zero with olen := 1, resKind := 2, resTid := 3, resPid := 1, resAdr := 7, resCode := 0x49,
                                   resDesc := 3, flags := 0x03, resVal := 0x0074 }, some [0x49]) ∧
    (nextOf (exec .parse (load [0x15, 0x30, 0x31, 0x30, 0x30, 0x30, 0x30, 0x69, 0x03] block64))).map
      (fun t => t.bank.resDesc) = some 9 ∧
    [load [0x02, 0x30, 0x30, 0x30, 0x30, 0x30, 0x30, 0x61, 0x2E, 0x62, 0x2E, 0x63, 0x03] block64,
     load [0x06, 0x30, 0x30, 0x30, 0x31, 0x30, 0x30, 0x32, 0x04] block64,
     load [0x06, 0x30, 0x30, 0x30, 0x31, 0x30, 0x30, 0x41, 0x03] block64,
     load [0x06, 0x30, 0x32, 0x30, 0x31, 0x30, 0x30, 0x32, 0x32, 0x2E, 0x33, 0x65, 0x38, 0x03] block64,
     load [0x15, 0x30, 0x30, 0x30, 0x31, 0x30, 0x30, 0x32, 0x31, 0x03] block64,
     load [0x15, 0x30, 0x31, 0x30, 0x30, 0x30, 0x30, 0x49, 0x43, 0x03] block64,
     strict (load [0x06, 0x41, 0x42, 0x30, 0x30, 0x20, 0x35, 0x76, 0x03] block64),
     load [0x06, 0x30, 0x31, 0x30, 0x30, 0x30, 0x30, 0x80, 0x03] block64,
     passing (load [0x06, 0x30, 0x31, 0x30, 0x30, 0x30, 0x30, 0x80, 0x03] block64)].map (fun s => statusOf (exec .parse s)) =
    [some 0x02, some 0x03, some 0x04, some 0x05, some 0x09, some 0x09, some 0x08, some 0x0A, some 0x00] := by decide

/-! ## Host port -/

/-- A block whose registers all differ. -/
def distinct : State :=
  { args 0xA0 0xA1 0xA2 block64 with
    ilen := 0x1234
    bank := { status := 0x0C, flags := 0x03, olen := 0x1111, resKind := 0x02, resTid := 0xFDF0, resPid := 0x2222
              resAdr := 0x3333, resVal := 0x4444, resCode := 0x49, resDesc := 0x05 } }

/-- The map of 10_state.md R31, with CMD and the reserved addresses at 0 (R34, R44). -/
theorem test_register_map :
    [0x00, 0x01, 0x02, 0x03, 0x04, 0x05, 0x07, 0x08, 0x09, 0x0A, 0x0B, 0x0C, 0x0D, 0x0E, 0x0F, 0x10, 0x11, 0x12,
      0xFF].map (fun a : Byte => readRegister a distinct) =
    [0, 0xA0, 0xA1, 0xA2, 0x1234, 0, 0, 0x0C, 0x03, 0x1111, 0x02, 0xFDF0, 0x2222, 0x3333, 0x4444, 0x49, 0x05, 0, 0] := by
  decide

/-- The high byte of a write to an 8-bit register is dropped (U16); read-only addresses ignore writes (R44). -/
theorem test_register_writes :
    (writeRegister 0x03 0xFF77 distinct) = { distinct with arg2 := 0x77 } ∧
    (writeRegister 0x08 0xFFFF distinct) = distinct ∧ (writeRegister 0x11 0xFFFF distinct) = distinct ∧
    (writeRegister 0x05 0xFFFF distinct) = distinct := by decide

/-- Writes and reads outside the buffers (U15). -/
theorem test_buffer_edges :
    (writeInputByte 63 0xAB block64).ibuf = [(63, 0xAB)] ∧ (writeInputByte 64 0xAB block64).ibuf = [] ∧
    (readBufferByte block64.ibuf 64 64 block64).reads = [.byte 0x00] ∧
    (readBufferByte block64.obuf block64.cfg.obufCap 74 block64).reads = [.byte 0x00] := by decide

/-- A read of a byte with no value goes on and counts a draw (R272). -/
theorem test_valueless_read : (readBufferByte block64.obuf block64.cfg.obufCap 73 block64).draws = 1 ∧
    (readBufferByte block64.obuf block64.cfg.obufCap 73 block64).reads.length = 1 := by
  constructor <;> rfl

/-- The first command after reset with nothing placed by hand: DPENC of ARG0 = 0. -/
theorem test_first_step_from_reset :
    resultOf (step (State.reset.withFetchWord 8 0x01)) = some ({ ResultBank.zero with olen := 2 }, some [0x30, 0x30]) :=
  rfl

/-! ## Notation (30_encoding.md R113, R114; 95_test_vectors.md, section 3) -/

/-- P1 lines 1 and 2. -/
theorem test_assemble_p1 :
    assembleLine "load \"a.b.c\"" =
      some [.wrreg 0x04 5, .wrib 0 0x61, .wrib 1 0x2E, .wrib 2 0x62, .wrib 3 0x2E, .wrib 4 0x63] ∧
    assembleLine "build 0, 0, 0 ; the request" =
      some [.wrreg 0x01 0, .wrreg 0x02 0, .wrreg 0x03 0, .wrreg 0x00 4] := by decide

/-- P2 lines 3, 5, 6; P3 line 7; P4 lines 3 to 6. -/
theorem test_assemble_lines :
    assemble ["rdreg OLEN", "wrreg ILEN, 14", "wrib 0, 0x06", "wrreg CMD, 0x07", "dpdec 0x20, 0x35",
      "load [0x80, 0x80]", "cksum", "dpenc 100", "PARSE", "rdob 12", "rdib 3"] =
    some [.rdreg 0x0A, .wrreg 0x04 14, .wrib 0 0x06, .wrreg 0x00 7, .wrreg 0x01 0x20, .wrreg 0x02 0x35, .wrreg 0x00 2,
      .wrreg 0x04 2, .wrib 0 0x80, .wrib 1 0x80, .wrreg 0x00 3, .wrreg 0x01 100, .wrreg 0x00 1, .wrreg 0x00 5,
      .rdob 12, .rdib 3] := by decide

/-- A reserved address stands as `<reg>` (notes/assumptions/14.md). -/
theorem test_assemble_reserved_address :
    assemble ["rdreg 0x05", "wrreg 0xFF, 1", "", "; nothing"] = some [.rdreg 0x05, .wrreg 0xFF 1] := by decide

/-- Numerals beyond their range and unknown registers are no lines of the notation. -/
theorem test_assemble_rejects :
    [assembleLine "wrib 0, 0x100", assembleLine "wrreg CMD, 0x10000", assembleLine "rdreg FOO"] = [none, none, none] := by
  decide

/-! ## Witnesses: something meets the hypotheses of each statement, and of each of its clauses at its ends -/

/-- Ten bytes: the input sequence of a block with `P_MAXLEN = 10` can be no longer. -/
def ten : List Byte := [0x30, 0x31, 0x32, 0x33, 0x34, 0x35, 0x36, 0x37, 0x38, 0x7F]

/-- A block that holds a result with a byte of OBUF beyond it, an input, and reads the host has made. -/
def busy : State :=
  { load ten (args 99 1 99 block10) with
    bank := { ResultBank.zero with olen := 2 }, obuf := [(0, 0x30), (1, 0x37), (19, 0x55)], reads := [.reg 5], draws := 3 }

/-- `busy` with an illegal command done. -/
def failed : State := { busy with bank := { ResultBank.zero with status := 0x0C } }

theorem witness_EncodedCommandDecodesToItself : ∀ i ∈ [Instr.dpenc, .dpdec, .cksum, .build, .parse], i.wf = true := by decide

theorem witness_IllegalOpcodeCompletesWithIllegalCommand :
    (∀ d ∈ [(0x0000 : Word), 0x0100, 0x0006, 0x00FF], NextIs (pending [.wrreg 0x00 d] busy) (.wrreg 0x00 d) [] ∧
      (d.toNat % 256 = 0x00 ∨ 0x06 ≤ d.toNat % 256) ∧ statusOf (step (pending [.wrreg 0x00 d] busy)) = some 0x0C) ∧
    (∀ d ∈ [(0x0001 : Word), 0x0105], NextIs (pending [.wrreg 0x00 d] busy) (.wrreg 0x00 d) [] ∧
      ¬ (d.toNat % 256 = 0x00 ∨ 0x06 ≤ d.toNat % 256)) := by
  refine ⟨?_, ?_⟩ <;> (intro d hd; fin_cases hd) <;> decide

theorem witness_StepRunsTheDecodedCommand :
    ∀ x ∈ [((0x0001 : Word), Instr.dpenc), (0x0002, .dpdec), (0x0003, .cksum), (0x0004, .build), (0xFF05, .parse)],
      NextIs (pending [.wrreg 0x00 x.1] busy) (.wrreg 0x00 x.1) [] ∧ x.2.wf = true ∧ decode x.1 = .ok x.2 := by decide

theorem witness_PlacedCommandWordRunsNext :
    decodeTableWord 8 0x01 = some .dpenc ∧ decodeTableWord 8 0x105 = some .parse ∧ decodeTableWord 16 0x105 = some .parse := by
  decide

theorem witness_RegisterReadFollowsTheMap : ∀ a ∈ [(0x00 : Byte), 0x01, 0x04, 0x05, 0x07, 0x08, 0x11, 0x12, 0xFF],
    NextIs (pending [.rdreg a] busy) (.rdreg a) [] := by decide

theorem witness_RegisterWriteStoresOrIsIgnored : ∀ a ∈ [(0x01 : Byte), 0x02, 0x03, 0x04, 0x05, 0x08, 0x11, 0x12, 0xFF],
    NextIs (pending [.wrreg a 0xFFFF] busy) (.wrreg a 0xFFFF) [] ∧ a ≠ 0x00 := by decide

theorem witness_RegisterReadReturnsLastWrite : ∀ a ∈ [(0x01 : Byte), 0x03, 0x04, 0x05, 0x08, 0xFF],
    (pending [.wrreg a 0xFFFF, .rdreg a] busy).port = .transaction (.wrreg a 0xFFFF) :: .transaction (.rdreg a) :: [] ∧
    a ≠ 0x00 := by decide

theorem witness_InputByteWriteStoresOrIsIgnored :
    (NextIs (pending [.wrib 9 0xAB] busy) (.wrib 9 0xAB) [] ∧ (9 : Word).toNat < busy.cfg.maxLen) ∧
    (NextIs (pending [.wrib 10 0xAB] busy) (.wrib 10 0xAB) [] ∧ ¬ (10 : Word).toNat < busy.cfg.maxLen) := by decide

theorem witness_InputByteReadReturnsLastWrite : ∀ i ∈ [(0 : Word), 9, 10, 0xFFFF],
    (pending [.wrib i 0xAB, .rdib i] busy).port = .transaction (.wrib i 0xAB) :: .transaction (.rdib i) :: [] :=
  fun _ _ => rfl

theorem witness_BufferReadReturnsByteOrZero :
    (NextIs (pending [.rdib 9] busy) (.rdib 9) [] ∧ (9 : Word).toNat < busy.cfg.maxLen ∧ ibufByte busy 9 = some 0x7F) ∧
    (NextIs (pending [.rdib 10] busy) (.rdib 10) [] ∧ busy.cfg.maxLen ≤ (10 : Word).toNat) ∧
    (NextIs (pending [.rdob 19] busy) (.rdob 19) [] ∧ (19 : Word).toNat < busy.cfg.maxLen + 10 ∧
      obufByte busy 19 = some 0x55) ∧
    (NextIs (pending [.rdob 20] busy) (.rdob 20) [] ∧ busy.cfg.maxLen + 10 ≤ (20 : Word).toNat) := by decide

theorem witness_ValuelessByteIsDrawnByReadsAndFaultsCommands :
    (NextIs (pending [.rdib 9] block10) (.rdib 9) [] ∧ (9 : Word).toNat < block10.cfg.maxLen ∧ ibufByte block10 9 = none) ∧
    (NextIs (pending [.rdob 18] busy) (.rdob 18) [] ∧ (18 : Word).toNat < busy.cfg.obufCap ∧ obufByte busy 18 = none) ∧
    (∀ d ∈ [(0x0003 : Word), 0x0004, 0x0005],
      let s := pending [.wrreg 0x00 d] { load (ten.take 9) block10 with ilen := 10 }
      NextIs s (.wrreg 0x00 d) [] ∧ s.ilen.toNat ≤ s.cfg.maxLen ∧ 9 < s.ilen.toNat ∧ ibufByte s 9 = none) := by
  refine ⟨by decide, by decide, ?_⟩
  intro d hd; fin_cases hd <;> decide

/-- The fault itself, at the last byte of a full IBUF. -/
theorem test_valueless_byte_faults :
    step (pending [.wrreg 0x00 0x0003] { load (ten.take 9) block10 with ilen := 10 }) = .fault .unwrittenInputByte := rfl

theorem witness_ReadTransactionsChangeNothingInTheBlock :
    NextIs (pending [.rdreg 0x08] busy) (.rdreg 0x08) [] ∧ NextIs (pending [.rdib 9] busy) (.rdib 9) [] ∧
    NextIs (pending [.rdob 18] busy) (.rdob 18) [] := by decide

theorem witness_EventsAreTakenInOrder :
    Steps 2 (pending [.wrreg 0x01 7, .rdreg 0x01] busy)
      { args 7 1 99 busy with port := [], reads := [.reg 5, .reg 7] } := ⟨_, rfl, _, rfl, rfl⟩

theorem witness_IdleStepChangesNothing : busy.port = [] := by decide

theorem witness_ExternalResetRestoresResetState :
    ({ busy with port := [.reset, .transaction (.rdreg 0)] } : State).port = .reset :: [.transaction (.rdreg 0)] := by decide

theorem witness_DigitPairEncodeGivesTwoDigits :
    ((0 : Int) ≤ 0 ∧ (0 : Int) ≤ 99) ∧ ((0 : Int) ≤ 99 ∧ (99 : Int) ≤ 99) ∧ ((-1 : Int) < 0 ∨ (99 : Int) < -1) ∧
    ((100 : Int) < 0 ∨ (99 : Int) < 100) := by decide

theorem witness_DigitBytesDecodeInRangeAndEncodeBack :
    digitsValid 0x30 0x30 = true ∧ digitsValid 0x39 0x39 = true := by decide

theorem witness_DigitPairRoundTrip : ∀ n ∈ [(0 : Int), 9, 10, 99], 0 ≤ n ∧ n ≤ 99 := by decide

theorem witness_DigitPidIsOneOnlyForZeroOne : digitsValid 0x30 0x31 = true ∧ digitsValid 0x31 0x30 = true := by decide

theorem witness_DpencEncodesArgZero :
    (args 0 0 0 block10).arg0.toNat ≤ 99 ∧ (args 99 0 0 block10).arg0.toNat ≤ 99 ∧
    99 < (args 100 0 0 block10).arg0.toNat ∧ 99 < (args 255 0 0 block10).arg0.toNat := by decide

theorem witness_HexPairIsUppercaseHex : (15 ≤ 15) ∧ (0x45 : Byte) ∈ hexPair 0xE8 := by decide

theorem witness_HexPairIsInjective : hexPair 0xE8 = hexPair (0xE7 + 1) := by decide

theorem witness_ChecksumLaws : [0x01, 0x02].Perm ([0x02, 0x01] : List Byte) ∧ 9 < ten.length ∧ 7 < 8 := by decide

theorem witness_CksumSumsTheInput :
    InputIs block10 [] ∧ InputIs (load ten block10) ten ∧ block10.cfg.maxLen < ({ block10 with ilen := 11 } : State).ilen.toNat := by
  decide

theorem witness_RequestFrameLayout :
    ((99 ≤ 99) ∧ (1 ≤ 99) ∧ (0 ≤ 99) ∧ ([0x00, 0x7F] : List Byte).all isAscii = true) ∧
    ((0 ≤ 99) ∧ (2 ≤ 99) ∧ ([] : List Byte).all isAscii = true ∧ ¬ 2 = 1) := by decide

/-- With and without a checksum, and with an item that fills IBUF. -/
theorem witness_BuildEmitsRequestFrame :
    ∀ x ∈ [(busy, ten), (args 0 0 0 block10, []), (load [0x78] (args 3 2 4 block10), [0x78])],
      x.1.cfg.wf = true ∧ InputIs x.1 x.2 ∧ x.1.arg0.toNat ≤ 99 ∧ x.1.arg1.toNat ≤ 99 ∧ x.1.arg2.toNat ≤ 99 ∧
      (∀ b ∈ x.2, b.toNat ≤ 0x7F) := by decide

theorem witness_BuildReportsFirstFailingCheck :
    ({ busy with ilen := 11 } : State).cfg.maxLen < ({ busy with ilen := 11 } : State).ilen.toNat ∧
    (InputIs (args 100 0 0 busy) ten ∧ 99 < (args 100 0 0 busy).arg0.toNat) ∧
    (InputIs (args 0 100 0 busy) ten ∧ 99 < (args 0 100 0 busy).arg1.toNat) ∧
    (InputIs (args 0 0 100 busy) ten ∧ 99 < (args 0 0 100 busy).arg2.toNat) ∧
    (let s := load [0x61, 0x80] (args 99 99 99 block10)
     InputIs s [0x61, 0x80] ∧ s.arg0.toNat ≤ 99 ∧ s.arg1.toNat ≤ 99 ∧ s.arg2.toNat ≤ 99 ∧
     ∃ b ∈ ([0x61, 0x80] : List Byte), 0x7F < b.toNat) := by decide

/-- Lengths 0, 7 and 8, and 10 = P_MAXLEN; then 11. -/
theorem witness_ParseReportsFirstFailingCheck :
    (∀ k ∈ [0, 7, 8, 10], InputIs (load (ten.take k) block10) (ten.take k)) ∧
    block10.cfg.maxLen < ({ block10 with ilen := 11 } : State).ilen.toNat := by decide

/-- Every status that PARSE's checks can give is given by some frame (95_test_vectors.md 2.5 and rows under `strict`). -/
theorem test_responseChecks :
    [firstFailure (responseChecks block64.cfg (ten.take 7)), firstFailure (responseChecks block64.cfg (ten.take 8)),
     firstFailure (responseChecks block64.cfg (0x06 :: ten)),
     firstFailure (responseChecks (strict block64).cfg [0x06, 0x30, 0x30, 0x2F, 0x3B, 0x30, 0x30, 0x5A, 0x03]),
     firstFailure (responseChecks block64.cfg [0x06, 0x30, 0x30, 0x2F, 0x3B, 0x30, 0x30, 0x5A, 0x03]),
     firstFailure (responseChecks block64.cfg (frameS4.set 12 0x39)), firstFailure (responseChecks block64.cfg frameS4)] =
    [0x01, 0x02, 0x03, 0x08, 0x04, 0x05, 0x00] := by decide

/-- Without and with a checksum, the empty value at its shortest length, strict digits, a byte above 0x7F let pass. -/
theorem witness_ParseAcceptsAckFrame :
    (let s := strict (load [0x06, 0x30, 0x30, 0x30, 0x30, 0x30, 0x30, 0x03] block10)
     InputIs s (frameOf 0x06 ([0x30, 0x30, 0x30, 0x30, 0x30, 0x30] ++ []) (decide (digitPairDecode 0x30 0x30 = 1))) ∧
     (s.cfg.strictDigits = true → ([0x30, 0x30, 0x30, 0x30, 0x30, 0x30] : List Byte).all isDigit = true)) ∧
    (let s := load frameS4 block64
     InputIs s (frameOf 0x06 ([0x30, 0x32, 0x30, 0x31, 0x30, 0x30] ++ text223) (decide (digitPairDecode 0x30 0x31 = 1))) ∧
     (s.cfg.ackAsciiStrict = true → ∀ b ∈ text223, b.toNat ≤ 0x7F)) ∧
    (let s := passing (load [0x06, 0x41, 0x42, 0x30, 0x30, 0x20, 0x35, 0x80, 0x03] block10)
     InputIs s (frameOf 0x06 ([0x41, 0x42, 0x30, 0x30, 0x20, 0x35] ++ [0x80]) (decide (digitPairDecode 0x30 0x30 = 1))) ∧
     s.cfg.strictDigits = false ∧ s.cfg.ackAsciiStrict = false) := by decide

theorem witness_ParseAcceptsNakFrame :
    (let s := strict (load [0x15, 0x30, 0x31, 0x30, 0x30, 0x30, 0x30, 0x49, 0x03] block10)
     InputIs s (frameOf 0x15 ([0x30, 0x31, 0x30, 0x30, 0x30, 0x30] ++ [0x49]) (decide (digitPairDecode 0x30 0x30 = 1))) ∧
     (s.cfg.strictDigits = true → ([0x30, 0x31, 0x30, 0x30, 0x30, 0x30] : List Byte).all isDigit = true)) ∧
    (let s := load [0x15, 0x30, 0x33, 0x30, 0x31, 0x30, 0x37, 0x49, 0x37, 0x34, 0x03] block64
     InputIs s (frameOf 0x15 ([0x30, 0x33, 0x30, 0x31, 0x30, 0x37] ++ [0x49]) (decide (digitPairDecode 0x30 0x31 = 1))) ∧
     s.cfg.strictDigits = false) := by decide

/-- An ACK and a NAK frame that PARSE accepts. -/
theorem witness_ParseAcceptsOnlyResponseFrames :
    ∀ f ∈ [frameS4, [0x15, 0x30, 0x31, 0x30, 0x30, 0x30, 0x30, 0x49, 0x03]],
      InputIs (load f block64) f ∧ statusOf (exec .parse (load f block64)) = some 0x00 := by decide

theorem witness_AckFrameRoundTrip :
    (99 ≤ 99 ∧ 1 ≤ 99 ∧ 0 ≤ 99 ∧ ∀ b ∈ ten, b.toNat ≤ 0x7F) ∧ (0 ≤ 99 ∧ 99 ≤ 99 ∧ ∀ b ∈ ([] : List Byte), b.toNat ≤ 0x7F) := by
  decide

/-- BUILD of 2, 1, 0 with "22.3", then the frame of S4 in another block. -/
theorem witness_BuiltFrameParsesBack :
    let s := load text223 (args 2 1 0 block10)
    let u := load frameS4 block64
    s.cfg.wf = true ∧ InputIs s text223 ∧ s.arg0.toNat ≤ 99 ∧ s.arg1.toNat ≤ 99 ∧ s.arg2.toNat ≤ 99 ∧
    (∀ b ∈ text223, b.toNat ≤ 0x7F) ∧
    (nextOf (exec .build s)).any (fun t => decide (u.ilen = t.bank.olen ∧ u.ilen.toNat ≤ u.cfg.maxLen ∧
      ibufByte u 0 = some 0x06 ∧ ∀ i, i < t.bank.olen.toNat → 0 < i → ibufByte u i = obufByte t i)) = true := by decide

/-- The frame `f` with bit `k` of byte `i` flipped. -/
def flipped (f : List Byte) (i k : Nat) : List Byte := f.set i (byteAt f i ^^^ (1#8 <<< k))

/-- The premises of the two bit-flip statements: `f` in `s` is accepted with CKP, its flipped form stands in `u`. -/
abbrev FlipAccepted (s u : State) (f : List Byte) (i k : Nat) : Prop :=
  InputIs s f ∧ (nextOf (exec .parse s)).map (fun t => (t.bank.status, t.bank.flags.getLsbD 1)) = some (0x00, true) ∧
  i < f.length ∧ k < 8 ∧ InputIs u (flipped f i k) ∧ u.cfg = s.cfg

/-- Sentinel, both ends of TID, ADR, payload and CRC, and ETX; bits 0 and 7; with the status each gives. -/
theorem witness_SingleBitFlipOutsidePidIsDetected :
    ∀ x ∈ [(0, 0, 0x02), (0, 7, 0x02), (1, 7, 0x05), (2, 0, 0x05), (5, 7, 0x05), (6, 0, 0x05), (7, 7, 0x05), (10, 0, 0x05),
        (11, 7, 0x05), (12, 0, 0x05), (13, 0, 0x03), (13, 7, 0x03)],
      FlipAccepted (load frameS4 block64) (load (flipped frameS4 x.1 x.2.1) block64) frameS4 x.1 x.2.1 ∧ x.1 ≠ 3 ∧ x.1 ≠ 4 ∧
      statusOf (exec .parse (load (flipped frameS4 x.1 x.2.1) block64)) = some x.2.2 := by decide

/-- On a strict block: a TID or ADR byte that is a digit after the flip, one that is none, and the first byte behind. -/
theorem witness_SingleBitFlipOutsidePidIsDetected_strict :
    ∀ x ∈ [(1, 0, 0x05), (1, 7, 0x08), (6, 0, 0x05), (6, 7, 0x08), (7, 7, 0x05), (12, 7, 0x05)],
      FlipAccepted (strict (load frameS4 block64)) (strict (load (flipped frameS4 x.1 x.2.1) block64)) frameS4 x.1 x.2.1 ∧
      x.1 ≠ 3 ∧ x.1 ≠ 4 ∧
      statusOf (exec .parse (strict (load (flipped frameS4 x.1 x.2.1) block64))) = some x.2.2 := by decide

/-- The NAK frame of 95_test_vectors.md 2.5 row 4. -/
def frameNak : List Byte := [0x15, 0x30, 0x33, 0x30, 0x31, 0x30, 0x37, 0x49, 0x37, 0x34, 0x03]

/-- Both PID bytes of an ACK frame: accepted, with the CRC as payload (95_test_vectors.md 2.5 row 29). -/
theorem witness_PidBitFlipRemovesTheChecksum_ack :
    ∀ x ∈ [(3, 0), (3, 7), (4, 0), (4, 7)],
      FlipAccepted (load frameS4 block64) (load (flipped frameS4 x.1 x.2) block64) frameS4 x.1 x.2 ∧
      (x.1 = 3 ∨ x.1 = 4) ∧ byteAt frameS4 0 = 0x06 ∧
      statusOf (exec .parse (load (flipped frameS4 x.1 x.2) block64)) = some 0x00 := by decide

/-- Both PID bytes of a NAK frame: its payload is three bytes then. -/
theorem witness_PidBitFlipRemovesTheChecksum_nak :
    ∀ x ∈ [(3, 0), (3, 7), (4, 0), (4, 7)],
      FlipAccepted (load frameNak block64) (load (flipped frameNak x.1 x.2) block64) frameNak x.1 x.2 ∧
      (x.1 = 3 ∨ x.1 = 4) ∧ byteAt frameNak 0 = 0x15 ∧
      statusOf (exec .parse (load (flipped frameNak x.1 x.2) block64)) = some 0x09 := by decide

/-- A strict block: a flip that leaves no digit, and one that leaves a digit. -/
theorem witness_PidBitFlipRemovesTheChecksum_strict :
    ∀ x ∈ [(4, 7, false, 0x08), (4, 1, true, 0x00)],
      FlipAccepted (strict (load frameS4 block64)) (strict (load (flipped frameS4 x.1 x.2.1) block64)) frameS4 x.1 x.2.1 ∧
      isDigit (byteAt (flipped frameS4 x.1 x.2.1) x.1) = x.2.2.1 ∧
      statusOf (exec .parse (strict (load (flipped frameS4 x.1 x.2.1) block64))) = some x.2.2.2 := by decide

/-- A legal and an illegal command word. -/
theorem witness_CommandsWriteOnlyBankAndOutput :
    busy.cfg.wf = true ∧ ∀ d ∈ [(0x0004 : Word), 0x0006], (nextOf (runCommandWord d busy)).isSome = true := by
  refine ⟨by decide, ?_⟩
  intro d hd; fin_cases hd <;> decide

theorem witness_StateInv : StateInv busy ∧ StateInv failed := by
  constructor <;> (unfold StateInv ResultBankSound; decide)

theorem witness_RepeatedCommandChangesNothing :
    StateInv busy ∧ ∀ d ∈ [(0x0001 : Word), 0x0003, 0x0006], (nextOf (runCommandWord d busy)).isSome = true :=
  ⟨witness_StateInv.1, by intro d hd; fin_cases hd <;> decide⟩

/-- Two states and two words that agree on the inputs and on nothing else; then two that both fault. -/
theorem witness_CommandOutputsDependOnInputsOnly :
    (let s1 := load (ten.take 4) (args 99 1 99 block10)
     let s2 := { failed with ilen := 4 }
     (0xFF04 : Word).toNat % 256 = (0x0004 : Word).toNat % 256 ∧ s2.arg0 = s1.arg0 ∧ s2.arg1 = s1.arg1 ∧ s2.arg2 = s1.arg2 ∧
     s2.ilen = s1.ilen ∧ s2.cfg = s1.cfg ∧ (∀ i, i < s1.ilen.toNat → ibufByte s2 i = ibufByte s1 i) ∧
     (nextOf (runCommandWord 0x0004 s1)).isSome = true ∧ s2.ibuf ≠ s1.ibuf ∧ s2.obuf ≠ s1.obuf) ∧
    (let s := { block10 with ilen := 1 }
     (∀ i, i < s.ilen.toNat → ibufByte s i = ibufByte block10 i) ∧ nextOf (runCommandWord 0x0005 s) = none) := by decide

theorem witness_ErrorLeavesOnlyStatus :
    statusOf (runCommandWord 0x0006 busy) = some 0x0C ∧ statusOf (runCommandWord 0x0005 busy) = some 0x02 := by decide

/-- A filled IBUF, an empty input, and a length beyond IBUF. -/
theorem witness_ReadyInputCompletesEveryCommand :
    InputReady busy ∧ InputReady block10 ∧ InputReady { block10 with ilen := 11 } := by decide

theorem witness_ResultLivesUntilNextCommandOrReset :
    let s := pending [.wrib 0 0xAB] busy
    s.port = .transaction (.wrib 0 0xAB) :: [] ∧ HostEvent.transaction (.wrib 0 0xAB) ≠ .reset ∧
    (nextOf (step s)).isSome = true := by decide

theorem witness_ResultLivesUntilNextCommandOrReset_noCommand (d : Word) :
    HostEvent.transaction (.wrib 0 0xAB) ≠ .transaction (.wrreg 0x00 d) := by intro h; cases h

theorem witness_ParametersNeverChange :
    (nextOf (step (pending [.wrreg 0x00 0x0004] busy))).isSome = true ∧
    (nextOf (step { busy with port := [.reset] })).isSome = true := by decide

/-- Each kind of step from a state with the invariant: a command, a buffer write at the last index, the reset. -/
theorem witness_StepKeepsInvariant :
    (StateInv (pending [.wrreg 0x00 0x0004] busy) ∧ (nextOf (step (pending [.wrreg 0x00 0x0004] busy))).isSome = true) ∧
    (StateInv (pending [.wrib 9 0xAB] busy) ∧ (nextOf (step (pending [.wrib 9 0xAB] busy))).isSome = true) ∧
    (StateInv { busy with port := [.reset] } ∧ (nextOf (step { busy with port := [.reset] })).isSome = true) :=
  ⟨⟨witness_StateInv.1, by decide⟩, ⟨witness_StateInv.1, by decide +kernel⟩, ⟨witness_StateInv.1, by decide +kernel⟩⟩

theorem witness_ObservedOutputIsDefined : StateInv busy ∧ Steps 1 (pending [.rdreg 0x00] busy)
    { busy with reads := [.reg 5, .reg 0] } := ⟨witness_StateInv.1, _, rfl, rfl⟩

/-- The longest load that fits, and the empty one. -/
theorem witness_LoadMakesTheInput :
    ∀ bs ∈ [ten, []], bs.length ≤ block10.cfg.maxLen ∧ bs.length ≤ 65535 ∧
      (pending (expandPseudo (.load bs)) block10).port = (expandPseudo (.load bs)).map .transaction ++ [] := by decide

theorem witness_BuildPseudoRunsBuildOnItsOperands :
    (pending (expandPseudo (.build 99 1 0xFF63)) busy).port = (expandPseudo (.build 99 1 0xFF63)).map .transaction ++ [] := by
  decide

end Sys2Proof.Tests
end

section
/-! The state and what keeps it: the statements of spec/10_state.md.

The idea behind the command statements: a command is a pure function `commandEnding` of its inputs, followed by the
one write `finish`. That `commandEnding` reads the inputs alone gives noninterference (R50); that `finish` writes the
result bank and the output alone gives the frame (R46); the two together give idempotence; and that every success of
`commandEnding` is `SoundWithin` the capacity of OBUF gives the invariant. -/

namespace Sys2Proof.Machine

/-! ## Steps at the host port -/

theorem step_commandWrite {s : State} {d : Word} {rest : List HostEvent} (h : NextIs s (.wrreg 0x00 d) rest) :
    step s = runCommandWord d (s.setPort rest) := step_event h

theorem step_registerRead {s : State} {a : Byte} {rest : List HostEvent} (h : NextIs s (.rdreg a) rest) :
    step s = .next ((s.setPort rest).pushRead (.reg (readRegister a s))) := step_event h

theorem step_registerWrite {s : State} {a : Byte} {d : Word} {rest : List HostEvent}
    (h : NextIs s (.wrreg a d) rest) (ha : a ≠ 0x00) : step s = .next (writeRegister a d (s.setPort rest)) := by
  rw [step_event h]
  exact if_neg ha

theorem runCommandWord_of_decode {d : Word} {i : Instr} (h : decode d = .ok i) (s : State) :
    runCommandWord d s = exec i s := by
  unfold runCommandWord
  rw [h]

theorem decode_tableWord_of_decodeTableWord {nbits w : Nat} {i : Instr} (h : decodeTableWord nbits w = some i) :
    decode (tableWord nbits w) = .ok i := by
  unfold decodeTableWord at h
  split at h
  next j hj => cases h; exact hj
  next => cases h

theorem instr_wf (i : Instr) : i.wf = true := by cases i <;> rfl

/-- Settles O5: the event is taken from the port, and the decoded command is what the word runs. -/
theorem stepRunsTheDecodedCommand : Obligations.StepRunsTheDecodedCommand := by
  intro s d rest i hnext _ hdecode
  rw [step_commandWrite hnext, runCommandWord_of_decode hdecode]

/-- Settles O6, by O5: the placed word is the next event, and taking it from the port gives back the state before. -/
theorem placedCommandWordRunsNext : Obligations.PlacedCommandWordRunsNext := by
  intro s nbits w i h
  exact stepRunsTheDecodedCommand (s.withFetchWord nbits w) (tableWord nbits w) s.port i rfl (instr_wf i)
    (decode_tableWord_of_decodeTableWord h)

/-- Settles O17. -/
theorem idleStepChangesNothing : Obligations.IdleStepChangesNothing := fun _ => step_idle

/-! ## The register file (10_state.md R31, R44) -/

@[simp] theorem zext16_toNat (b : Byte) : (zext16 b).toNat = b.toNat := by
  have := b.isLt
  simp only [zext16, BitVec.toNat_setWidth]
  omega

theorem lowByte_eq_ofNat (d : Word) : lowByte d = BitVec.ofNat 8 (d.toNat % 256) := by
  apply BitVec.eq_of_toNat_eq
  simp [lowByte_toNat]

/-- A register read follows the map, address by address; an address without an entry reads 0. -/
theorem readRegister_toNat (a : Byte) (s : State) :
    (readRegister a s).toNat = ((registerTable s).lookup a.toNat).getD 0 := by
  unfold readRegister
  split
  case h_15 =>
    have hnone : (registerTable s).lookup a.toNat = none := by
      rw [List.lookup_eq_none_iff]
      simp_all [registerTable]
    rw [hnone]
    rfl
  all_goals
    rename_i h
    rw [h]
    simp [registerTable, List.lookup_cons]

/-- Settles O7. -/
theorem registerReadFollowsTheMap : Obligations.RegisterReadFollowsTheMap := by
  intro s a rest hnext
  exact ⟨readRegister a s, readRegister_toNat a s, step_registerRead hnext⟩

/-- Settles O8, by the five cases of a register write. -/
theorem registerWriteStoresOrIsIgnored : Obligations.RegisterWriteStoresOrIsIgnored := by
  intro s a d rest hnext ha
  rw [step_registerWrite hnext ha, ← lowByte_eq_ofNat]
  rcases writeRegister_cases a d (s.setPort rest) with
    ⟨rfl, hw⟩ | ⟨rfl, hw⟩ | ⟨rfl, hw⟩ | ⟨rfl, hw⟩ | ⟨h1, h2, h3, h4, hw⟩ <;> rw [hw]
  case inr.inr.inr.inr => rw [if_neg h1, if_neg h2, if_neg h3, if_neg h4]; rfl
  all_goals rfl

/-! ## A command is a function of its inputs, followed by one write (10_state.md R46, R50) -/

/-- How a command ends: with its outputs, or with the error it raised (00_scope.md R14, R15). -/
abbrev Ending := Except ErrorCode (ResultBank × List Byte)

/-- How a command over the input sequence ends, none where it reads a byte with no value. -/
def inputEnding (s : State) (result : List Byte → Ending) : Option Ending :=
  if s.cfg.maxLen < s.ilen.toNat then some (.error .badLength) else (inputSequence s).map result

/-- How each command ends. -/
def execEnding (s : State) : Instr → Option Ending
  | .dpenc => some (dpencResult (unsignedOperand s.arg0))
  | .dpdec => some (dpdecResult s.arg0 s.arg1)
  | .cksum => inputEnding s cksumResult
  | .build => inputEnding s
      (buildResult (unsignedOperand s.arg0) (unsignedOperand s.arg1) (unsignedOperand s.arg2))
  | .parse => inputEnding s (parseResult s.cfg)

/-- How a command word ends, legal or not. -/
def commandEnding (d : Word) (s : State) : Option Ending :=
  match decode d with
  | .ok i => execEnding s i
  | .error _ => some (.error .illegalCommand)

/-- The outcome of an ending: the one write, or the fault. -/
def outcomeOf (s : State) : Option Ending → Host.Outcome State Fault Refusal
  | some r => .next (finish r s)
  | none => .fault .unwrittenInputByte

theorem runOnInput_eq_outcomeOf (s : State) (result : List Byte → Ending) :
    runOnInput s result = outcomeOf s (inputEnding s result) := by
  unfold runOnInput inputEnding
  split
  next => rfl
  next => cases inputSequence s <;> rfl

theorem exec_eq_outcomeOf (i : Instr) (s : State) : exec i s = outcomeOf s (execEnding s i) := by
  cases i with
  | dpenc => rfl
  | dpdec => rfl
  | cksum => exact runOnInput_eq_outcomeOf s _
  | build => exact runOnInput_eq_outcomeOf s _
  | parse => exact runOnInput_eq_outcomeOf s _

theorem commandEnding_of_decode {d : Word} {i : Instr} (h : decode d = .ok i) (s : State) :
    commandEnding d s = execEnding s i := by
  unfold commandEnding
  rw [h]

theorem commandEnding_of_illegal {d : Word} {e : DecodeError} (h : decode d = .error e) (s : State) :
    commandEnding d s = some (.error .illegalCommand) := by
  unfold commandEnding
  rw [h]

theorem runCommandWord_eq_outcomeOf (d : Word) (s : State) :
    runCommandWord d s = outcomeOf s (commandEnding d s) := by
  rcases runCommandWord_cases d s with ⟨i, hd, hrun⟩ | ⟨op, hd, hrun⟩
  · rw [hrun, exec_eq_outcomeOf, commandEnding_of_decode hd]
  · rw [hrun, commandEnding_of_illegal hd]
    rfl

theorem runCommandWord_eq_next_iff {d : Word} {s t : State} :
    runCommandWord d s = .next t ↔ ∃ r, commandEnding d s = some r ∧ t = finish r s := by
  rw [runCommandWord_eq_outcomeOf]
  cases commandEnding d s <;> simp [outcomeOf, eq_comm]

theorem runCommandWord_eq_fault_iff {d : Word} {s : State} {f : Fault} :
    runCommandWord d s = .fault f ↔ commandEnding d s = none := by
  rw [runCommandWord_eq_outcomeOf]
  cases f
  cases commandEnding d s <;> simp [outcomeOf]

/-! ## An ending reads the inputs alone (10_state.md R50) -/

theorem decode_congr {d e : Word} (h : e.toNat % 256 = d.toNat % 256) : decode e = decode d := by
  have hop : opcodeField e = opcodeField d :=
    BitVec.eq_of_toNat_eq (by rw [opcodeField_toNat, opcodeField_toNat, h])
  unfold decode
  rw [hop]

/-- A sequence reads the bytes of its own indices alone. -/
theorem Memory.readSeq_congr {m m' : Memory} {start n : Nat}
    (h : ∀ i, i < n → Memory.read m' (start + i) = Memory.read m (start + i)) :
    Memory.readSeq m' start n = Memory.readSeq m start n := by
  apply Option.ext
  intro bs
  rw [Memory.readSeq_eq_some_iff, Memory.readSeq_eq_some_iff]
  exact and_congr_right fun _ => forall₂_congr fun i hi => by rw [h i hi]

/-- The two states agree on all that R50 lets a command read. -/
structure SameOperands (s t : State) : Prop where
  arg0 : t.arg0 = s.arg0
  arg1 : t.arg1 = s.arg1
  arg2 : t.arg2 = s.arg2
  ilen : t.ilen = s.ilen
  cfg : t.cfg = s.cfg
  input : ∀ i, i < s.ilen.toNat → ibufByte t i = ibufByte s i

theorem SameOperands.inputSequence_eq {s t : State} (h : SameOperands s t) : inputSequence t = inputSequence s := by
  unfold inputSequence
  rw [h.ilen]
  exact Memory.readSeq_congr fun i hi => by simpa [ibufByte] using h.input i hi

theorem SameOperands.inputEnding_eq {s t : State} (h : SameOperands s t) (result : List Byte → Ending) :
    inputEnding t result = inputEnding s result := by
  unfold inputEnding
  rw [h.cfg, h.ilen, h.inputSequence_eq]

theorem SameOperands.execEnding_eq {s t : State} (h : SameOperands s t) (i : Instr) :
    execEnding t i = execEnding s i := by
  cases i <;> simp only [execEnding, h.arg0, h.arg1, h.arg2, h.cfg, h.inputEnding_eq]

theorem SameOperands.commandEnding_eq {s t : State} (h : SameOperands s t) (d : Word) :
    commandEnding d t = commandEnding d s := by
  unfold commandEnding
  cases decode d with
  | ok i => exact h.execEnding_eq i
  | error e => rfl

theorem commandEnding_congr_word {d e : Word} (h : e.toNat % 256 = d.toNat % 256) (s : State) :
    commandEnding e s = commandEnding d s := by
  unfold commandEnding
  rw [decode_congr h]

/-! ## The write of an ending -/

theorem finish_sameInputs (r : Ending) (s : State) : SameInputs s (finish r s) := by
  rw [finish_eq]
  exact ⟨rfl, rfl, rfl, rfl, rfl, rfl, rfl, rfl, rfl⟩

theorem finish_sameOperands (r : Ending) (s : State) : SameOperands s (finish r s) := by
  obtain ⟨h0, h1, h2, hl, hi, hc, -, -, -⟩ := finish_sameInputs r s
  exact ⟨h0, h1, h2, hl, hc, fun i _ => by unfold ibufByte; rw [hi]⟩

/-- The result bank is that of the ending, whatever the state. -/
theorem finish_bank_eq (r : Ending) (s t : State) : (finish r t).bank = (finish r s).bank := by cases r <;> rfl

theorem finish_error_olen (e : ErrorCode) (s : State) : (finish (.error e) s).bank.olen.toNat = 0 := rfl

theorem finish_ok_olen (bank : ResultBank) (out : List Byte) (s : State) :
    (finish (.ok (bank, out)) s).bank.olen.toNat = out.length % 65536 := BitVec.toNat_ofNat _ _

/-- `OBUF[0..OLEN)` is that of the ending, whatever the state. -/
theorem finish_output_eq (r : Ending) (s t : State) (i : Nat) (hi : i < (finish r s).bank.olen.toNat) :
    obufByte (finish r t) i = obufByte (finish r s) i := by
  cases r with
  | error e => rw [finish_error_olen] at hi; omega
  | ok p =>
    obtain ⟨bank, out⟩ := p
    rw [finish_ok_olen] at hi
    have hlt : i < out.length := by have := Nat.mod_le out.length 65536; omega
    rw [finish_ok, finish_ok, complete_obufHolds bank out t i hlt, complete_obufHolds bank out s i hlt]

/-- Writing a sequence again changes nothing: the canonical form makes equal bytes equal data. -/
theorem Memory.writeSeq_writeSeq {m : Memory} (bs : List Byte) (start : Nat) (h : Memory.wf m = true) :
    Memory.writeSeq (Memory.writeSeq m start bs) start bs = Memory.writeSeq m start bs := by
  have hw := Memory.wf_writeSeq bs start h
  apply Memory.ext_of_read (Memory.wf_writeSeq bs start hw) hw
  intro i
  simp only [Memory.read_writeSeq]
  split <;> rfl

theorem finish_finish (r : Ending) {s : State} (h : Memory.wf s.obuf = true) :
    finish r (finish r s) = finish r s := by
  cases r with
  | error e => rfl
  | ok p =>
    obtain ⟨bank, out⟩ := p
    simp only [finish_ok, complete_eq, Memory.writeSeq_writeSeq out 0 h]

/-- Settles O46: the words and the states give one ending, and an ending fixes bank, output and fault. -/
theorem commandOutputsDependOnInputsOnly : Obligations.CommandOutputsDependOnInputsOnly := by
  intro d1 d2 s1 s2 hd h0 h1 h2 hl hc hi
  have hsame : SameOperands s1 s2 := ⟨h0, h1, h2, hl, hc, hi⟩
  have hend : commandEnding d2 s2 = commandEnding d1 s1 := by
    rw [commandEnding_congr_word hd, hsame.commandEnding_eq]
  constructor
  · intro t1 hrun
    obtain ⟨r, hr, rfl⟩ := runCommandWord_eq_next_iff.mp hrun
    exact ⟨finish r s2, runCommandWord_eq_next_iff.mpr ⟨r, hend.trans hr, rfl⟩,
      finish_bank_eq r s1 s2, finish_output_eq r s1 s2⟩
  · intro f hrun
    exact runCommandWord_eq_fault_iff.mpr (hend.trans (runCommandWord_eq_fault_iff.mp hrun))

/-- Settles O45: the first run leaves every operand, so the second has the same ending, and `finish` is idempotent. -/
theorem repeatedCommandChangesNothing : Obligations.RepeatedCommandChangesNothing := by
  intro d s t ⟨_, _, _, hobuf, _⟩ hrun
  obtain ⟨r, hr, rfl⟩ := runCommandWord_eq_next_iff.mp hrun
  have hend : commandEnding d (finish r s) = some r := ((finish_sameOperands r s).commandEnding_eq d).trans hr
  exact runCommandWord_eq_next_iff.mpr ⟨r, hend, (finish_finish r hobuf).symm⟩

/-! ## The endings of the five commands are sound (10_state.md R37 to R43) -/

/-- A success leaves a sound result bank and at most `n` output bytes. -/
def SoundWithin (n : Nat) (r : Ending) : Prop :=
  ∀ bank out, r = .ok (bank, out) → ResultBankSound (successBank bank out) ∧ out.length ≤ n

theorem soundWithin_error (n : Nat) (e : ErrorCode) : SoundWithin n (.error e) := nofun

theorem soundWithin_ok {n : Nat} {bank : ResultBank} {out : List Byte}
    (hbank : ResultBankSound (successBank bank out)) (hout : out.length ≤ n) : SoundWithin n (.ok (bank, out)) := by
  intro bank' out' h
  cases h
  exact ⟨hbank, hout⟩

theorem SoundWithin.mono {n k : Nat} {r : Ending} (h : SoundWithin n r) (hnk : n ≤ k) : SoundWithin k r :=
  fun bank out hr => ⟨(h bank out hr).1, (h bank out hr).2.trans hnk⟩

/-- The bank of a command other than PARSE: FLAGS and RES_VAL over a cleared bank. -/
theorem resultBankSound_of_flags_resVal {flags : Byte} (resVal : Word) (out : List Byte) (h : flags.toNat ≤ 3) :
    ResultBankSound (successBank { ResultBank.zero with flags := flags, resVal := resVal } out) := by
  simp [ResultBankSound, successBank, ResultBank.zero, statusOk, fromS16, h]

theorem resultBankSound_errorBank (e : ErrorCode) : ResultBankSound (errorBank e) := by
  have hstatus : (errorStatus e).toNat ≤ 0x0C := by cases e <;> decide
  simp [ResultBankSound, errorBank, ResultBank.zero, fromS16, hstatus]

theorem resultBankSound_zero : ResultBankSound ResultBank.zero := by
  simp [ResultBankSound, ResultBank.zero, fromS16]

theorem length_of_digitPairEncode {n : Int} {bs : List Byte} (h : digitPairEncode n = .ok bs) : bs.length = 2 := by
  unfold digitPairEncode at h
  split at h
  next => cases h
  next => cases h; rfl

theorem soundWithin_dpencResult (n : Int) : SoundWithin 2 (dpencResult n) := by
  unfold dpencResult
  cases h : digitPairEncode n with
  | error e => exact soundWithin_error _ e
  | ok bs =>
    exact soundWithin_ok (resultBankSound_of_flags_resVal (flags := 0) 0 bs (by decide))
      (length_of_digitPairEncode h).le

theorem soundWithin_dpdecResult (b0 b1 : Byte) : SoundWithin 0 (dpdecResult b0 b1) :=
  soundWithin_ok (resultBankSound_of_flags_resVal _ [] (flagsOf_le _ _)) le_rfl

theorem soundWithin_cksumResult (bs : List Byte) : SoundWithin 2 (cksumResult bs) :=
  soundWithin_ok (resultBankSound_of_flags_resVal (flags := 0) _ _ (by decide)) (hexPair_length _).le

theorem length_of_encodeFields {tid pid adr : Int} {fields : List Byte} (h : encodeFields tid pid adr = .ok fields) :
    fields.length = 6 := by
  unfold encodeFields at h
  split at h
  next => cases h
  next t ht =>
    split at h
    next => cases h
    next p hp =>
      split at h
      next => cases h
      next a ha =>
        cases h
        simp [length_of_digitPairEncode ht, length_of_digitPairEncode hp, length_of_digitPairEncode ha]

theorem length_assembleFrame_le (sentinel : Byte) (pid : Int) (body : List Byte) :
    (assembleFrame sentinel pid body).length ≤ body.length + 4 := by
  have hcrc : (crcField pid body).length ≤ 2 := by unfold crcField; split <;> simp
  simp [assembleFrame]
  omega

/-- A request frame is at most 10 bytes longer than its item: OBUF_CAP is P_MAXLEN + 10 (00_scope.md R8). -/
theorem length_of_buildRequest_le {tid pid adr : Int} {item frame : List Byte}
    (h : buildRequest tid pid adr item = .ok frame) : frame.length ≤ item.length + 10 := by
  unfold buildRequest at h
  split at h
  next => cases h
  next fields hf =>
    split at h
    next =>
      cases h
      have hframe := length_assembleFrame_le STX pid (fields ++ item)
      simp only [List.length_append, length_of_encodeFields hf] at hframe
      omega
    next => cases h

theorem soundWithin_buildResult (tid pid adr : Int) (item : List Byte) :
    SoundWithin (item.length + 10) (buildResult tid pid adr item) := by
  unfold buildResult
  cases h : buildRequest tid pid adr item with
  | error e => exact soundWithin_error _ e
  | ok frame =>
    exact soundWithin_ok (resultBankSound_of_flags_resVal _ frame (flagsOf_le _ _)) (length_of_buildRequest_le h)

/-! ## PARSE's endings -/

/-- A decoded field, as its register shows it, lies in the range of the formula (10_state.md R40). -/
theorem fromS16_s16_digitPairDecode_range (b0 b1 : Byte) :
    -528 ≤ fromS16 (s16 (digitPairDecode b0 b1)) ∧ fromS16 (s16 (digitPairDecode b0 b1)) ≤ 2277 := by
  have h0 := b0.isLt
  have h1 := b1.isLt
  have hrange : -528 ≤ digitPairDecode b0 b1 ∧ digitPairDecode b0 b1 ≤ 2277 := by
    unfold digitPairDecode
    omega
  rw [fromS16_s16 (by omega) (by omega)]
  exact hrange

/-- What a successful decoding reports, read off the frame. -/
theorem parseResponse_ok {p : Params} {f : List Byte} {r : Response} (h : parseResponse p f = .ok r) :
    ∃ content, responseContent p f = .ok content ∧
      r = { tid := frameTid f, pid := framePid f, adr := frameAdr f, content := content
            ck := frameHasChecksum f, sum := frameChecksum f, dig := frameDigits f } := by
  unfold parseResponse at h
  iterate 6
    split at h
    next => cases h
  split at h
  next => cases h
  next content hc => cases h; exact ⟨content, hc, rfl⟩

/-- The value of an Ack is the frame's payload. -/
theorem ack_of_responseContent {p : Params} {f v : List Byte} (h : responseContent p f = .ok (.ack v)) :
    v = framePayload f := by
  simp only [responseContent] at h
  split at h
  next =>
    split at h
    next => cases h
    next => cases h; rfl
  next =>
    split at h
    next => cases h
    next => cases h

theorem length_slice_le (bs : List Byte) (a b : Nat) : (slice bs a b).length ≤ bs.length := by
  simp only [slice, List.length_drop, List.length_take]
  omega

theorem nakDescIndex_range (x : NakDescription) : 1 ≤ (nakDescIndex x).toNat ∧ (nakDescIndex x).toNat ≤ 9 := by
  cases x <;> decide

/-- The three field registers PARSE writes are in range. -/
def FieldsInRange (r : Response) : Prop :=
  (-528 ≤ fromS16 (s16 r.tid) ∧ fromS16 (s16 r.tid) ≤ 2277) ∧
  (-528 ≤ fromS16 (s16 r.pid) ∧ fromS16 (s16 r.pid) ≤ 2277) ∧
  (-528 ≤ fromS16 (s16 r.adr) ∧ fromS16 (s16 r.adr) ≤ 2277)

theorem fieldsInRange_of_parseResponse {p : Params} {f : List Byte} {r : Response} (h : parseResponse p f = .ok r) :
    FieldsInRange r := by
  obtain ⟨content, -, rfl⟩ := parseResponse_ok h
  exact ⟨fromS16_s16_digitPairDecode_range _ _, fromS16_s16_digitPairDecode_range _ _,
    fromS16_s16_digitPairDecode_range _ _⟩

theorem resultBankSound_ack {r : Response} (h : FieldsInRange r) (out : List Byte) :
    ResultBankSound (successBank { responseBank r with resKind := 1 } out) := by
  obtain ⟨htid, hpid, hadr⟩ := h
  simp [ResultBankSound, successBank, responseBank, ResultBank.zero, statusOk, flagsOf_le, htid, hpid, hadr]

theorem resultBankSound_nak {r : Response} (h : FieldsInRange r) (code : Byte) (x : NakDescription) :
    ResultBankSound
      (successBank { responseBank r with resKind := 2, resCode := code, resDesc := nakDescIndex x } [code]) := by
  obtain ⟨htid, hpid, hadr⟩ := h
  simp [ResultBankSound, successBank, responseBank, ResultBank.zero, statusOk, flagsOf_le, htid, hpid, hadr,
    nakDescIndex_range]

theorem soundWithin_parseResult (p : Params) (f : List Byte) : SoundWithin (f.length + 10) (parseResult p f) := by
  rcases parseResult_cases p f with ⟨e, -, hr⟩ | ⟨r, v, hp, hv, hr⟩ | ⟨r, c, x, hp, -, hr⟩ <;> rw [hr]
  case inl => exact soundWithin_error _ e
  case inr.inl =>
    obtain ⟨content, hcontent, hrec⟩ := parseResponse_ok hp
    have hack : content = .ack v := by rw [← hv, hrec]
    have hpayload : v = framePayload f := ack_of_responseContent (hack ▸ hcontent)
    refine soundWithin_ok (resultBankSound_ack (fieldsInRange_of_parseResponse hp) v) ?_
    rw [hpayload]
    exact (length_slice_le f _ _).trans (Nat.le_add_right _ _)
  case inr.inr =>
    exact soundWithin_ok (resultBankSound_nak (fieldsInRange_of_parseResponse hp) c x) (by simp)

/-! ## Every ending is sound within OBUF -/

/-- A command over the input sequence reads at most P_MAXLEN bytes, so `n + 10` output bytes for `n` input bytes
stay inside OBUF (00_scope.md R8). -/
theorem soundWithin_of_inputEnding {s : State} {result : List Byte → Ending} {r : Ending}
    (hsound : ∀ bs, SoundWithin (bs.length + 10) (result bs)) (h : inputEnding s result = some r) :
    SoundWithin s.cfg.obufCap r := by
  unfold inputEnding at h
  split at h
  next => cases h; exact soundWithin_error _ _
  next hlen =>
    obtain ⟨bs, hbs, rfl⟩ := Option.map_eq_some_iff.mp h
    obtain ⟨hl, -⟩ := (Memory.readSeq_eq_some_iff _ _ _ _).mp hbs
    exact (hsound bs).mono (by unfold Params.obufCap; omega)

theorem soundWithin_of_execEnding {i : Instr} {s : State} {r : Ending} (h : execEnding s i = some r) :
    SoundWithin s.cfg.obufCap r := by
  have hcap : s.cfg.obufCap = s.cfg.maxLen + 10 := rfl
  cases i with
  | dpenc => cases h; exact (soundWithin_dpencResult _).mono (by omega)
  | dpdec => cases h; exact (soundWithin_dpdecResult _ _).mono (by omega)
  | cksum => exact soundWithin_of_inputEnding (fun bs => (soundWithin_cksumResult bs).mono (by omega)) h
  | build => exact soundWithin_of_inputEnding (soundWithin_buildResult _ _ _) h
  | parse => exact soundWithin_of_inputEnding (soundWithin_parseResult _) h

theorem soundWithin_of_commandEnding {d : Word} {s : State} {r : Ending} (h : commandEnding d s = some r) :
    SoundWithin s.cfg.obufCap r := by
  cases hd : decode d with
  | ok i => exact soundWithin_of_execEnding (commandEnding_of_decode hd s ▸ h)
  | error e =>
    rw [commandEnding_of_illegal hd] at h
    cases h
    exact soundWithin_error _ _

/-- On a block with parameters in range a 16-bit OLEN counts every output (00_scope.md R7, R8). -/
theorem obufCap_lt_of_wf {p : Params} (h : p.wf = true) : p.obufCap < 65536 := by
  simp only [Params.wf, Bool.and_eq_true, decide_eq_true_eq] at h
  unfold Params.obufCap
  omega

theorem finish_frame {r : Ending} {s : State} (hwf : s.cfg.wf = true) (hr : SoundWithin s.cfg.obufCap r) :
    CommandFrame s (finish r s) (finish r s).bank.olen.toNat := by
  cases r with
  | error e => exact (raiseError_completion e s).2
  | ok p =>
    obtain ⟨bank, out⟩ := p
    have hout := (hr bank out rfl).2.trans_lt (obufCap_lt_of_wf hwf)
    rw [finish_ok_olen, Nat.mod_eq_of_lt hout]
    exact complete_frame bank out s

/-- Settles O44. -/
theorem commandsWriteOnlyBankAndOutput : Obligations.CommandsWriteOnlyBankAndOutput := by
  intro d s t hwf hrun
  obtain ⟨r, hr, rfl⟩ := runCommandWord_eq_next_iff.mp hrun
  exact finish_frame hwf (soundWithin_of_commandEnding hr)

/-! ## What the other events leave alone -/

/-- The part of the state that the invariant speaks of is the same in both states. -/
structure SameBlock (s t : State) : Prop where
  cfg : t.cfg = s.cfg
  ibuf : t.ibuf = s.ibuf
  obuf : t.obuf = s.obuf
  bank : t.bank = s.bank

theorem SameBlock.stateInv {s t : State} (h : SameBlock s t) (hs : StateInv s) : StateInv t := by
  unfold StateInv obufByte at hs ⊢
  rwa [h.cfg, h.ibuf, h.obuf, h.bank]

theorem sameBlock_setPort (s : State) (es : List HostEvent) : SameBlock s (s.setPort es) := ⟨rfl, rfl, rfl, rfl⟩

theorem sameBlock_pushRead (s : State) (v : ReadData) : SameBlock s (s.pushRead v) := ⟨rfl, rfl, rfl, rfl⟩

theorem sameBlock_readBufferByte (m : Memory) (cap i : Nat) (s : State) : SameBlock s (readBufferByte m cap i s) := by
  rcases readBufferByte_cases m cap i s with ⟨b, -, -, h⟩ | ⟨-, -, h⟩ | ⟨-, h⟩ <;> rw [h] <;>
    exact ⟨rfl, rfl, rfl, rfl⟩

theorem sameBlock_writeRegister (a : Byte) (d : Word) (s : State) : SameBlock s (writeRegister a d s) := by
  rcases writeRegister_cases a d s with ⟨-, h⟩ | ⟨-, h⟩ | ⟨-, h⟩ | ⟨-, h⟩ | ⟨-, -, -, -, h⟩ <;> rw [h] <;>
    exact ⟨rfl, rfl, rfl, rfl⟩

theorem SameBlock.trans {s t u : State} (h : SameBlock s t) (k : SameBlock t u) : SameBlock s u :=
  ⟨k.cfg.trans h.cfg, k.ibuf.trans h.ibuf, k.obuf.trans h.obuf, k.bank.trans h.bank⟩

/-- A step that goes on leaves the block alone (idle, a read, a register write), or is the ending of a command word, a
write to IBUF or the external reset. -/
theorem step_next_cases {s t : State} (h : step s = .next t) :
    SameBlock s t ∨ (∃ d rest, runCommandWord d (s.setPort rest) = .next t) ∨
    (∃ i b rest, t = writeInputByte i b (s.setPort rest)) ∨ (∃ rest, t = applyReset (s.setPort rest)) := by
  rcases step_cases s with ⟨-, hs⟩ | ⟨a, rest, -, hs⟩ | ⟨d, rest, -, hs⟩ | ⟨a, d, rest, -, -, hs⟩ |
    ⟨i, rest, -, hs⟩ | ⟨i, b, rest, -, hs⟩ | ⟨i, rest, -, hs⟩ | ⟨rest, -, hs⟩ <;> rw [hs] at h
  · cases h; exact .inl ⟨rfl, rfl, rfl, rfl⟩
  · cases h; exact .inl ((sameBlock_setPort s rest).trans (sameBlock_pushRead _ _))
  · exact .inr (.inl ⟨d, rest, h⟩)
  · cases h; exact .inl ((sameBlock_setPort s rest).trans (sameBlock_writeRegister a d _))
  · cases h; exact .inl ((sameBlock_setPort s rest).trans (sameBlock_readBufferByte _ _ _ _))
  · cases h; exact .inr (.inr (.inl ⟨i.toNat, b, rest, rfl⟩))
  · cases h; exact .inl ((sameBlock_setPort s rest).trans (sameBlock_readBufferByte _ _ _ _))
  · cases h; exact .inr (.inr (.inr ⟨rest, rfl⟩))

theorem writeInputByte_cfg (i : Nat) (b : Byte) (s : State) : (writeInputByte i b s).cfg = s.cfg := by
  rcases writeInputByte_cases i b s with ⟨-, h⟩ | ⟨-, h⟩ <;> rw [h]
  rfl

/-- Settles O50, by the four kinds of step. -/
theorem parametersNeverChange : Obligations.ParametersNeverChange := by
  intro s t h
  rcases step_next_cases h with hsame | ⟨d, rest, hrun⟩ | ⟨i, b, rest, rfl⟩ | ⟨rest, rfl⟩
  · exact hsame.cfg
  · obtain ⟨r, -, rfl⟩ := runCommandWord_eq_next_iff.mp hrun
    exact (finish_sameOperands r (s.setPort rest)).cfg
  · exact writeInputByte_cfg i b (s.setPort rest)
  · rfl

/-! ## The invariant (10_state.md R37 to R48) -/

/-- A sound ending keeps the invariant: the bank is sound, and `OBUF[0..OLEN)` is what was just written. -/
theorem stateInv_finish {r : Ending} {s : State} (hs : StateInv s) (hr : SoundWithin s.cfg.obufCap r) :
    StateInv (finish r s) := by
  obtain ⟨hcfg, hibuf, hin, hobuf, hout, -, -, -⟩ := hs
  cases r with
  | error e => exact ⟨hcfg, hibuf, hin, hobuf, hout, resultBankSound_errorBank e, Nat.zero_le _, nofun⟩
  | ok p =>
    obtain ⟨bank, out⟩ := p
    obtain ⟨hbank, hlen⟩ := hr bank out rfl
    have holen : (finish (.ok (bank, out)) s).bank.olen.toNat = out.length := by
      rw [finish_ok_olen, Nat.mod_eq_of_lt (hlen.trans_lt (obufCap_lt_of_wf hcfg))]
    refine ⟨hcfg, hibuf, hin, Memory.wf_writeSeq out 0 hobuf,
      Memory.within_writeSeq out 0 (by rwa [Nat.zero_add]) hout, hbank, holen ▸ hlen, ?_⟩
    intro i hi
    rw [holen] at hi
    rw [finish_ok, complete_obufHolds bank out s i hi]
    simpa using hi

theorem stateInv_writeInputByte {s : State} (hs : StateInv s) (i : Nat) (b : Byte) :
    StateInv (writeInputByte i b s) := by
  rcases writeInputByte_cases i b s with ⟨hi, h⟩ | ⟨-, h⟩ <;> rw [h]
  case inr => exact hs
  case inl =>
    obtain ⟨hcfg, hibuf, hin, hrest⟩ := hs
    exact ⟨hcfg, Memory.wf_write i b hibuf, Memory.within_write b hi hin, hrest⟩

theorem stateInv_applyReset {s : State} (hs : StateInv s) : StateInv (applyReset s) := by
  obtain ⟨hcfg, -⟩ := hs
  exact ⟨hcfg, Memory.wf_nil, Memory.within_nil _, Memory.wf_nil, Memory.within_nil _, resultBankSound_zero,
    Nat.zero_le _, nofun⟩

/-- Settles O52, by the four kinds of step. -/
theorem stepKeepsInvariant : Obligations.StepKeepsInvariant := by
  intro s t hs h
  have hport : ∀ rest, StateInv (s.setPort rest) := fun rest => (sameBlock_setPort s rest).stateInv hs
  rcases step_next_cases h with hsame | ⟨d, rest, hrun⟩ | ⟨i, b, rest, rfl⟩ | ⟨rest, rfl⟩
  · exact hsame.stateInv hs
  · obtain ⟨r, hr, rfl⟩ := runCommandWord_eq_next_iff.mp hrun
    exact stateInv_finish (hport rest) (soundWithin_of_commandEnding hr)
  · exact stateInv_writeInputByte (hport rest) i b
  · exact stateInv_applyReset (hport rest)

end Sys2Proof.Machine
end

section
/-! The host port and the buffers: the statements of spec/20_memory.md.

The handlers of the host events get their lemmas for the three questions asked here: what a read returns after a write,
what is left of the host's side (`EventsTaken`), and whether placing the block elsewhere commutes with them (`placedAt`). -/

namespace Sys2Proof.Machine

/-! ## Buffer transactions at the host port -/

theorem step_inputRead {s : State} {i : Word} {rest : List HostEvent} (h : NextIs s (.rdib i) rest) :
    step s = .next (readBufferByte s.ibuf s.cfg.maxLen i.toNat (s.setPort rest)) := step_event h

theorem step_inputWrite {s : State} {i : Word} {b : Byte} {rest : List HostEvent} (h : NextIs s (.wrib i b) rest) :
    step s = .next (writeInputByte i.toNat b (s.setPort rest)) := step_event h

theorem step_outputRead {s : State} {i : Word} {rest : List HostEvent} (h : NextIs s (.rdob i) rest) :
    step s = .next (readBufferByte s.obuf s.cfg.obufCap i.toNat (s.setPort rest)) := step_event h

theorem steps_two {s t u : State} (hs : step s = .next t) (ht : step t = .next u) : Steps 2 s u :=
  ⟨t, hs, u, ht, rfl⟩

/-! ## What a register write does to the register map (20_memory.md R71) -/

/-- A host write to a register changes operand registers alone. -/
theorem writeRegister_eq (a : Byte) (d : Word) (s : State) :
    writeRegister a d s =
      { s with arg0 := (writeRegister a d s).arg0, arg1 := (writeRegister a d s).arg1
               arg2 := (writeRegister a d s).arg2, ilen := (writeRegister a d s).ilen } := by
  rcases writeRegister_cases a d s with ⟨-, h⟩ | ⟨-, h⟩ | ⟨-, h⟩ | ⟨-, h⟩ | ⟨-, -, -, -, h⟩ <;> rw [h] <;> rfl

/-- The entry of the register map at the address just written. -/
theorem lookup_registerTable_writeRegister {a : Byte} (ha : a ≠ 0x00) (d : Word) (s : State) :
    ((registerTable (writeRegister a d s)).lookup a.toNat).getD 0 =
      if a.toNat ≤ 0x03 then d.toNat % 256 else if a.toNat = 0x04 then d.toNat
      else ((registerTable s).lookup a.toNat).getD 0 := by
  rcases writeRegister_cases a d s with
    ⟨rfl, h⟩ | ⟨rfl, h⟩ | ⟨rfl, h⟩ | ⟨rfl, h⟩ | ⟨h1, h2, h3, h4, h⟩ <;> rw [h]
  case inr.inr.inr.inr =>
    have hge : 0x04 < a.toNat := by bv_omega
    rw [if_neg (by omega), if_neg (by omega)]
  all_goals simp [registerTable, List.lookup_cons, lowByte_toNat]

/-- Settles O9: the read follows the map (O7), and the map holds the value just written. -/
theorem registerReadReturnsLastWrite : Obligations.RegisterReadReturnsLastWrite := by
  intro s a d rest hport ha
  obtain ⟨u, hu⟩ : ∃ u, u = writeRegister a d (s.setPort (.transaction (.rdreg a) :: rest)) := ⟨_, rfl⟩
  have hwrite : step s = .next u := hu ▸ step_registerWrite hport ha
  have hnext : NextIs u (.rdreg a) rest := by rw [hu, writeRegister_eq]; rfl
  have hreads : u.reads = s.reads := by rw [hu, writeRegister_eq]; rfl
  obtain ⟨v, hv, hread⟩ := registerReadFollowsTheMap u a rest hnext
  refine ⟨_, v, steps_two hwrite hread, congrArg (· ++ _) hreads, rfl, ?_⟩
  rw [hv, hu, lookup_registerTable_writeRegister ha]
  rfl

/-! ## One byte of a buffer (20_memory.md R72, R73) -/

/-- A host write to IBUF changes IBUF alone. -/
theorem writeInputByte_eq (i : Nat) (b : Byte) (s : State) :
    writeInputByte i b s = { s with ibuf := (writeInputByte i b s).ibuf } := by
  rcases writeInputByte_cases i b s with ⟨-, h⟩ | ⟨-, h⟩ <;> rw [h]
  rfl

theorem ibufByte_writeInputByte (i j : Nat) (b : Byte) (s : State) :
    ibufByte (writeInputByte i b s) j = if i < s.cfg.maxLen ∧ j = i then some b else ibufByte s j := by
  rcases writeInputByte_cases i b s with ⟨hi, h⟩ | ⟨hi, h⟩ <;> rw [h]
  · simp [ibufByte, Memory.read_write, hi]
  · rw [if_neg (by omega)]

/-- A host read where the buffer answers for itself: the byte held at `i`, or 0x00 outside the buffer. -/
theorem readBufferByte_of_byte {m : Memory} {cap i : Nat} {b : Byte}
    (h : i < cap ∧ Memory.read m i = some b ∨ cap ≤ i ∧ b = 0x00) (s : State) :
    readBufferByte m cap i s = s.pushRead (.byte b) := by
  unfold readBufferByte
  rcases h with ⟨hi, hb⟩ | ⟨hi, rfl⟩
  · rw [if_pos hi, hb]
  · rw [if_neg (by omega)]

/-- A host read of a buffer returns one byte; beyond that only the draw counter can move. -/
theorem readBufferByte_returns (m : Memory) (cap i : Nat) (s : State) :
    ∃ (b : Byte) (n : Nat), s.draws ≤ n ∧
      readBufferByte m cap i s = { s with reads := s.reads ++ [.byte b], draws := n } := by
  rcases readBufferByte_cases m cap i s with ⟨b, -, -, h⟩ | ⟨-, -, h⟩ | ⟨-, h⟩
  · exact ⟨b, s.draws, le_rfl, h⟩
  · exact ⟨Config.freeByte s.draws, s.draws + 1, Nat.le_succ _, h⟩
  · exact ⟨0x00, s.draws, le_rfl, h⟩

/-- Settles O10. -/
theorem inputByteWriteStoresOrIsIgnored : Obligations.InputByteWriteStoresOrIsIgnored := by
  intro s i b rest hnext
  exact ⟨_, step_inputWrite hnext, writeInputByte_eq i.toNat b (s.setPort rest),
    fun j => ibufByte_writeInputByte i.toNat j b (s.setPort rest)⟩

/-- Settles O12. -/
theorem bufferReadReturnsByteOrZero : Obligations.BufferReadReturnsByteOrZero := by
  intro s i rest b
  constructor
  · intro hnext hb
    exact (step_inputRead hnext).trans (congrArg _ (readBufferByte_of_byte hb (s.setPort rest)))
  · intro hnext hb
    exact (step_outputRead hnext).trans (congrArg _ (readBufferByte_of_byte hb (s.setPort rest)))

/-- Settles O11: the write leaves `b` at `i` or nothing to read there, which is what the read returns (O12). -/
theorem inputByteReadReturnsLastWrite : Obligations.InputByteReadReturnsLastWrite := by
  intro s i b rest hport
  obtain ⟨u, hwrite, hframe, hbytes⟩ := inputByteWriteStoresOrIsIgnored s i b _ hport
  have hcfg : u.cfg = s.cfg := by rw [hframe]
  have hreads : u.reads = s.reads := by rw [hframe]
  have hnext : NextIs u (.rdib i) rest := by rw [hframe]
  have hread := (bufferReadReturnsByteOrZero u i rest (if i.toNat < s.cfg.maxLen then b else 0x00)).1 hnext <| by
    rw [hcfg, hbytes]
    by_cases hi : i.toNat < s.cfg.maxLen
    · exact .inl ⟨hi, by simp [hi]⟩
    · exact .inr ⟨Nat.le_of_not_lt hi, if_neg hi⟩
  exact ⟨_, steps_two hwrite hread, congrArg (· ++ _) hreads⟩

/-- Settles O14, by the three kinds of read. -/
theorem readTransactionsChangeNothingInTheBlock : Obligations.ReadTransactionsChangeNothingInTheBlock := by
  rintro s x rest (⟨a, rfl⟩ | ⟨i, rfl⟩ | ⟨i, rfl⟩) hnext
  · exact ⟨_, _, step_registerRead hnext, rfl, rfl⟩
  · obtain ⟨b, n, -, hread⟩ := readBufferByte_returns s.ibuf s.cfg.maxLen i.toNat (s.setPort rest)
    exact ⟨_, .byte b, (step_inputRead hnext).trans (congrArg _ hread), rfl, rfl⟩
  · obtain ⟨b, n, -, hread⟩ := readBufferByte_returns s.obuf s.cfg.obufCap i.toNat (s.setPort rest)
    exact ⟨_, .byte b, (step_outputRead hnext).trans (congrArg _ hread), rfl, rfl⟩

/-! ## The host's side of a run (20_memory.md R81) -/

/-- From `s` to `t` the first `k` host events were taken and nothing that was returned or drawn was lost. -/
structure EventsTaken (k : Nat) (s t : State) : Prop where
  port : t.port = s.port.drop k
  reads : s.reads <+: t.reads
  draws : s.draws ≤ t.draws

theorem EventsTaken.trans {j k : Nat} {s t u : State} (h : EventsTaken j s t) (h' : EventsTaken k t u) :
    EventsTaken (j + k) s u where
  port := by rw [h'.port, h.port, List.drop_drop]
  reads := h.reads.trans h'.reads
  draws := h.draws.trans h'.draws

/-- Where no value is returned and none drawn, only the port is to be checked. -/
theorem eventsTaken_of_noRead {k : Nat} {s t : State} (hport : t.port = s.port.drop k) (hreads : t.reads = s.reads)
    (hdraws : t.draws = s.draws) : EventsTaken k s t := ⟨hport, ⟨[], by simp [hreads]⟩, hdraws.ge⟩

theorem eventsTaken_refl (s : State) : EventsTaken 0 s s := eventsTaken_of_noRead rfl rfl rfl

theorem eventsTaken_setPort {s : State} {e : HostEvent} {rest : List HostEvent} (h : s.port = e :: rest) :
    EventsTaken 1 s (s.setPort rest) := eventsTaken_of_noRead (by rw [h]; rfl) rfl rfl

theorem eventsTaken_pushRead (s : State) (v : ReadData) : EventsTaken 0 s (s.pushRead v) :=
  ⟨rfl, ⟨_, rfl⟩, le_rfl⟩

theorem eventsTaken_writeRegister (a : Byte) (d : Word) (s : State) : EventsTaken 0 s (writeRegister a d s) := by
  rw [writeRegister_eq]
  exact eventsTaken_of_noRead rfl rfl rfl

theorem eventsTaken_readBufferByte (m : Memory) (cap i : Nat) (s : State) :
    EventsTaken 0 s (readBufferByte m cap i s) := by
  obtain ⟨b, n, hn, h⟩ := readBufferByte_returns m cap i s
  rw [h]
  exact ⟨rfl, ⟨_, rfl⟩, hn⟩

theorem eventsTaken_writeInputByte (i : Nat) (b : Byte) (s : State) : EventsTaken 0 s (writeInputByte i b s) := by
  rw [writeInputByte_eq]
  exact eventsTaken_of_noRead rfl rfl rfl

theorem eventsTaken_finish (r : Ending) (s : State) : EventsTaken 0 s (finish r s) := by
  rw [finish_eq]
  exact eventsTaken_of_noRead rfl rfl rfl

theorem eventsTaken_runCommandWord {d : Word} {s t : State} (h : runCommandWord d s = .next t) :
    EventsTaken 0 s t := by
  obtain ⟨r, -, rfl⟩ := runCommandWord_eq_next_iff.mp h
  exact eventsTaken_finish r s

theorem eventsTaken_applyReset (s : State) : EventsTaken 0 s (applyReset s) := eventsTaken_of_noRead rfl rfl rfl

/-- No transaction touches what the host still has to send or has seen, but to return a value. -/
theorem eventsTaken_transact {x : HostTransaction} {s t : State} (h : transact x s = .next t) :
    EventsTaken 0 s t := by
  cases x with
  | rdreg a => cases h; exact eventsTaken_pushRead _ _
  | wrreg a d =>
    simp only [transact] at h
    split at h
    next => exact eventsTaken_runCommandWord h
    next => cases h; exact eventsTaken_writeRegister _ _ _
  | rdib i => cases h; exact eventsTaken_readBufferByte _ _ _ _
  | wrib i b => cases h; exact eventsTaken_writeInputByte _ _ _
  | rdob i => cases h; exact eventsTaken_readBufferByte _ _ _ _

theorem eventsTaken_handleEvent {e : HostEvent} {s t : State} (h : handleEvent e s = .next t) :
    EventsTaken 0 s t := by
  cases e with
  | transaction x => exact eventsTaken_transact h
  | reset => cases h; exact eventsTaken_applyReset s

theorem eventsTaken_step {s t : State} (h : step s = .next t) : EventsTaken 1 s t := by
  cases hport : s.port with
  | nil =>
    rw [step_idle hport] at h
    cases h
    exact eventsTaken_of_noRead (by rw [hport]; rfl) rfl rfl
  | cons e rest =>
    rw [step_event hport] at h
    exact (eventsTaken_setPort hport).trans (eventsTaken_handleEvent h)

theorem eventsTaken_steps {k : Nat} {s t : State} (h : Steps k s t) : EventsTaken k s t := by
  induction k generalizing s with
  | zero => cases h; exact eventsTaken_refl _
  | succ k ih =>
    obtain ⟨u, hstep, hrest⟩ := h
    exact Nat.add_comm 1 k ▸ (eventsTaken_step hstep).trans (ih hrest)

/-- Settles O16, by induction on the number of steps. -/
theorem eventsAreTakenInOrder : Obligations.EventsAreTakenInOrder := by
  intro k s t h
  obtain ⟨hport, hreads, hdraws⟩ := eventsTaken_steps h
  exact ⟨hport, hreads, hdraws⟩

/-! ## The placement of the block (20_memory.md R86)

Each operation commutes with `placedAt b`: of the parameters it reads P_MAXLEN and the two strictness switches at
most, which `placedAt` keeps. -/

/-- An outcome with P_BASE put into its next state. -/
def placedOutcome (b : Nat) : Host.Outcome State Fault Refusal → Host.Outcome State Fault Refusal
  | .next t => .next (placedAt b t)
  | .fault f => .fault f
  | .refused r => .refused r

theorem setPort_placedAt (b : Nat) (s : State) (es : List HostEvent) :
    (placedAt b s).setPort es = placedAt b (s.setPort es) := rfl

theorem finish_placedAt (b : Nat) (r : Ending) (s : State) : finish r (placedAt b s) = placedAt b (finish r s) := by
  cases r <;> rfl

theorem parseResult_of_base (b : Nat) (p : Params) : parseResult { p with base := b } = parseResult p := rfl

theorem inputEnding_placedAt (b : Nat) (s : State) (result : List Byte → Ending) :
    inputEnding (placedAt b s) result = inputEnding s result := rfl

theorem execEnding_placedAt (b : Nat) (s : State) (i : Instr) : execEnding (placedAt b s) i = execEnding s i := by
  cases i with
  | dpenc | dpdec => rfl
  | cksum | build => exact inputEnding_placedAt b s _
  | parse => exact (inputEnding_placedAt b s _).trans (congrArg _ (parseResult_of_base b s.cfg))

theorem commandEnding_placedAt (b : Nat) (d : Word) (s : State) :
    commandEnding d (placedAt b s) = commandEnding d s := by
  unfold commandEnding
  cases decode d with
  | ok i => exact execEnding_placedAt b s i
  | error e => rfl

theorem runCommandWord_placedAt (b : Nat) (d : Word) (s : State) :
    runCommandWord d (placedAt b s) = placedOutcome b (runCommandWord d s) := by
  rw [runCommandWord_eq_outcomeOf, runCommandWord_eq_outcomeOf, commandEnding_placedAt]
  cases commandEnding d s with
  | none => rfl
  | some r => exact congrArg _ (finish_placedAt b r s)

theorem writeRegister_placedAt (b : Nat) (a : Byte) (d : Word) (s : State) :
    writeRegister a d (placedAt b s) = placedAt b (writeRegister a d s) := by
  unfold writeRegister
  split <;> rfl

theorem readBufferByte_placedAt (b : Nat) (m : Memory) (cap i : Nat) (s : State) :
    readBufferByte m cap i (placedAt b s) = placedAt b (readBufferByte m cap i s) := by
  unfold readBufferByte
  split
  next => cases Memory.read m i <;> rfl
  next => rfl

theorem writeInputByte_placedAt (b : Nat) (i : Nat) (c : Byte) (s : State) :
    writeInputByte i c (placedAt b s) = placedAt b (writeInputByte i c s) := by
  have hsame : (placedAt b s).cfg.maxLen = s.cfg.maxLen := rfl
  unfold writeInputByte
  rw [hsame]
  split <;> rfl

theorem transact_placedAt (b : Nat) (x : HostTransaction) (s : State) :
    transact x (placedAt b s) = placedOutcome b (transact x s) := by
  cases x with
  | rdreg a => rfl
  | wrreg a d =>
    simp only [transact]
    split
    next => exact runCommandWord_placedAt b d s
    next => exact congrArg _ (writeRegister_placedAt b a d s)
  | rdib i => exact congrArg _ (readBufferByte_placedAt b s.ibuf s.cfg.maxLen i.toNat s)
  | wrib i c => exact congrArg _ (writeInputByte_placedAt b i.toNat c s)
  | rdob i => exact congrArg _ (readBufferByte_placedAt b s.obuf s.cfg.obufCap i.toNat s)

theorem handleEvent_placedAt (b : Nat) (e : HostEvent) (s : State) :
    handleEvent e (placedAt b s) = placedOutcome b (handleEvent e s) := by
  cases e with
  | transaction x => exact transact_placedAt b x s
  | reset => rfl

theorem step_placedAt (b : Nat) (s : State) : step (placedAt b s) = placedOutcome b (step s) := by
  have hsame : (placedAt b s).port = s.port := rfl
  cases hport : s.port with
  | nil => rw [step_idle hport, step_idle (hsame.trans hport)]; rfl
  | cons e rest =>
    rw [step_event hport, step_event (hsame.trans hport), setPort_placedAt, handleEvent_placedAt]

/-- Settles O51. -/
theorem placementIsReadByNoRule : Obligations.PlacementIsReadByNoRule := by
  intro b s
  rw [step_placedAt]
  cases step s <;> rfl

end Sys2Proof.Machine
end

section
/-! The command words and the expansions of host programs (spec/30_encoding.md R101 to R105, R114). -/

namespace Sys2Proof.Machine

/-! ## The opcode map (30_encoding.md R101 to R105) -/

/-- The decoder is the inverse of the opcode table, on all eight bits of the opcode. -/
theorem decode_eq_ok_iff {d : Word} {i : Instr} : decode d = .ok i ↔ opcodeField d = opcodeOf i := by
  constructor
  · intro h
    simp only [decode] at h
    iterate 5
      split at h
      next hop => cases h; exact hop
    cases h
  · intro h
    simp only [decode, h]
    cases i <;> rfl

theorem mem_opcodeRows_iff {n : Nat} {i : Instr} :
    (n, i) ∈ [(0x01, Instr.dpenc), (0x02, .dpdec), (0x03, .cksum), (0x04, .build), (0x05, .parse)] ↔
      n = (opcodeOf i).toNat := by
  cases i <;> simp [opcodeOf]

/-- Settles O3: both sides say that the opcode of `d` is that of `i`. -/
theorem commandSelectedByLowEightBits : Obligations.CommandSelectedByLowEightBits := by
  intro d i
  rw [decode_eq_ok_iff, mem_opcodeRows_iff, ← opcodeField_toNat, BitVec.toNat_inj]

/-- The legal opcodes are 0x01 to 0x05. -/
theorem exists_opcodeOf_toNat_iff {n : Nat} : (∃ i, (opcodeOf i).toNat = n) ↔ ¬ (n = 0x00 ∨ 0x06 ≤ n) := by
  constructor
  · rintro ⟨i, rfl⟩
    cases i <;> decide
  · intro hn
    obtain ⟨hlow, hhigh⟩ : 1 ≤ n ∧ n ≤ 5 := by omega
    interval_cases n
    exacts [⟨.dpenc, rfl⟩, ⟨.dpdec, rfl⟩, ⟨.cksum, rfl⟩, ⟨.build, rfl⟩, ⟨.parse, rfl⟩]

theorem exists_decode_eq_ok_iff {d : Word} :
    (∃ i, decode d = .ok i) ↔ ¬ (d.toNat % 256 = 0x00 ∨ 0x06 ≤ d.toNat % 256) := by
  rw [← exists_opcodeOf_toNat_iff]
  exact exists_congr fun i => by rw [decode_eq_ok_iff, ← opcodeField_toNat, BitVec.toNat_inj, eq_comm]

/-- Settles O4: a word decodes exactly when its opcode is legal, and what does not decode is an illegal command. -/
theorem illegalOpcodeCompletesWithIllegalCommand : Obligations.IllegalOpcodeCompletesWithIllegalCommand := by
  intro d s rest hnext
  rw [step_commandWrite hnext]
  constructor
  · intro hillegal
    rcases runCommandWord_cases d (s.setPort rest) with ⟨i, hdecode, -⟩ | ⟨op, -, hrun⟩
    · exact absurd hillegal (exists_decode_eq_ok_iff.mp ⟨i, hdecode⟩)
    · exact ⟨_, hrun, raiseError_completion .illegalCommand _⟩
  · intro hlegal
    obtain ⟨i, hdecode⟩ := exists_decode_eq_ok_iff.mpr hlegal
    exact ⟨i, runCommandWord_of_decode hdecode _⟩

theorem decode_encode (i : Instr) : decode (encode i) = .ok i :=
  decode_eq_ok_iff.mpr (by cases i <;> rfl)

/-- Settles O1. -/
theorem encodedCommandDecodesToItself : Obligations.EncodedCommandDecodesToItself :=
  fun i _ => decode_encode i

/-- Settles O2: eight closed words. -/
theorem writtenOutCommandWordsDecode : Obligations.WrittenOutCommandWordsDecode := by
  unfold Obligations.WrittenOutCommandWordsDecode
  decide

/-! ## No step refuses (30_encoding.md R104) -/

theorem runCommandWord_ne_refused (d : Word) (s : State) (r : Refusal) : runCommandWord d s ≠ .refused r := by
  rw [runCommandWord_eq_outcomeOf]
  cases commandEnding d s <;> nofun

/-- Settles O15: a step other than a command write goes on, and a command write ends or faults. -/
theorem stepNeverRefuses : Obligations.StepNeverRefuses := by
  intro s r
  rcases step_cases s with ⟨-, h⟩ | ⟨a, rest, -, h⟩ | ⟨d, rest, -, h⟩ | ⟨a, d, rest, -, -, h⟩ | ⟨i, rest, -, h⟩ |
    ⟨i, b, rest, -, h⟩ | ⟨i, rest, -, h⟩ | ⟨rest, -, h⟩ <;> rw [h]
  case inr.inr.inl => exact runCommandWord_ne_refused d _ r
  all_goals nofun

/-! ## The expansions of pseudo-instructions (R114) -/

/-- Settles O55: each of the first three events writes its operand register, and the fourth decodes to BUILD. -/
theorem buildPseudoRunsBuildOnItsOperands : Obligations.BuildPseudoRunsBuildOnItsOperands := by
  intro s tid pid adr rest hport
  simp only [← lowByte_eq_ofNat]
  refine ⟨_, ⟨_, step_registerWrite hport (by decide), _, step_registerWrite rfl (by decide),
    _, step_registerWrite rfl (by decide), rfl⟩, ?_⟩
  exact (step_commandWrite rfl).trans (runCommandWord_of_decode (decode_encode .build) _)

theorem writeInputByte_of_lt {i : Nat} {s : State} (h : i < s.cfg.maxLen) (b : Byte) :
    writeInputByte i b s = s.setIbuf (Memory.write s.ibuf i b) := if_pos h

/-- The `wrib` events of a load store its bytes from index `k` on, one a step. -/
theorem steps_loadBytes (bs : List Byte) (rest : List HostEvent) : ∀ (k : Nat) (s : State),
    k + bs.length ≤ s.cfg.maxLen → k + bs.length ≤ 65536 →
    s.port = (loadBytes k bs).map .transaction ++ rest →
    Steps bs.length s ((s.setPort rest).setIbuf (Memory.writeSeq s.ibuf k bs)) := by
  induction bs with
  | nil => intro k s _ _ hport; cases hport; rfl
  | cons b bs ih =>
    intro k s hfits hword hport
    simp only [List.length_cons] at hfits hword
    have hk : (BitVec.ofNat 16 k).toNat = k := Nat.mod_eq_of_lt (by omega)
    have hin : k < s.cfg.maxLen := by omega
    have hwrite := step_inputWrite hport
    rw [hk, writeInputByte_of_lt (by exact hin)] at hwrite
    exact ⟨_, hwrite, ih (k + 1) _ (by simpa [Nat.add_assoc, Nat.add_comm 1] using hfits) (by omega) rfl⟩

/-- Settles O54: the first event writes ILEN, the others store the bytes from index 0 on. -/
theorem loadMakesTheInput : Obligations.LoadMakesTheInput := by
  intro s bs rest hfits hword hport
  have hlen := step_registerWrite hport (by decide)
  have hbytes : Steps bs.length _ _ := steps_loadBytes bs rest 0
    ((s.setPort ((loadBytes 0 bs).map .transaction ++ rest)).setIlen (BitVec.ofNat 16 bs.length))
    (by simpa using hfits) (by omega) rfl
  refine ⟨_, ⟨_, hlen, hbytes⟩, ⟨by simp; omega, by simpa using hfits, ?_⟩, rfl, ?_⟩
  · intro i hi
    simp [ibufByte, Memory.read_writeSeq, hi]
  · intro i hi
    simp [ibufByte, Memory.read_writeSeq, Nat.not_lt.mpr hi]

end Sys2Proof.Machine
end

section
/-! The layout of frames (spec/30_encoding.md R106): a frame of the form `frameOf` by index, and the request frame as
one of them. -/

namespace Sys2Proof.Machine

/-! ## A frame by index -/

theorem length_frameOf (sentinel : Byte) (body : List Byte) (crc : Bool) :
    (frameOf sentinel body crc).length = body.length + 2 + 2 * (if crc then 1 else 0) := by
  cases crc <;> simp [frameOf]

theorem getElem?_frameOf_zero (sentinel : Byte) (body : List Byte) (crc : Bool) :
    (frameOf sentinel body crc)[0]? = some sentinel := by
  simp [frameOf]

theorem getElem?_frameOf_body (sentinel : Byte) {body : List Byte} (crc : Bool) {i : Nat} (hi : i < body.length) :
    (frameOf sentinel body crc)[i + 1]? = body[i]? := by
  simp [frameOf, List.getElem?_append_left hi]

/-- Behind the body stand the two characters of its checksum, where there is a CRC field, and ETX. -/
theorem drop_frameOf (sentinel : Byte) (body : List Byte) (crc : Bool) :
    (frameOf sentinel body crc).drop (body.length + 1) =
      (if crc then hexPair (checksum body) else []) ++ [0x03] := by
  simp [frameOf]

theorem getElem?_frameOf_tail (sentinel : Byte) (body : List Byte) (crc : Bool) (j : Nat) :
    (frameOf sentinel body crc)[body.length + 1 + j]? =
      ((if crc then hexPair (checksum body) else []) ++ [0x03])[j]? := by
  rw [← drop_frameOf sentinel body crc, List.getElem?_drop]

/-- The checksum region of a frame, bytes 1 up to the CRC field, is its body (30_encoding.md R110). -/
theorem slice_frameOf_body (sentinel : Byte) (body : List Byte) (crc : Bool) :
    slice (frameOf sentinel body crc) 1 (body.length + 1) = body := by
  simp [slice, frameOf]

/-! ## The request frame -/

theorem digitPairEncode_natCast {n : Nat} (hn : n ≤ 99) : digitPairEncode n = .ok (twoDigits n) := by
  rw [digitPairEncode, if_neg (by omega)]
  simp only [twoDigits, ← BitVec.ofInt_natCast]
  rfl

/-- Fields in range encode to six digits. -/
theorem encodeFields_natCast {tid pid adr : Nat} (htid : tid ≤ 99) (hpid : pid ≤ 99) (hadr : adr ≤ 99) :
    encodeFields tid pid adr = .ok (twoDigits tid ++ twoDigits pid ++ twoDigits adr) := by
  simp only [encodeFields, digitPairEncode_natCast htid, digitPairEncode_natCast hpid, digitPairEncode_natCast hadr]

theorem assembleFrame_natCast (sentinel : Byte) (pid : Nat) (body : List Byte) :
    assembleFrame sentinel pid body = frameOf sentinel body (decide (pid = 1)) := by
  simp [assembleFrame, crcField, frameOf, ETX]

/-- On fields in range and an ASCII item, the encoder gives the frame of R106. -/
theorem buildRequest_natCast {tid pid adr : Nat} {item : List Byte} (htid : tid ≤ 99) (hpid : pid ≤ 99)
    (hadr : adr ≤ 99) (hitem : item.all isAscii = true) :
    buildRequest tid pid adr item = .ok (frameOf 0x02 (frameBody tid pid adr item) (decide (pid = 1))) := by
  simp only [buildRequest, encodeFields_natCast htid hpid hadr, hitem, if_true, assembleFrame_natCast]
  rfl

theorem length_frameBody (tid pid adr : Nat) (tail : List Byte) :
    (frameBody tid pid adr tail).length = tail.length + 6 := by
  simp only [frameBody, twoDigits, List.length_append, List.length_cons, List.length_nil]
  omega

theorem getElem?_frameBody_tail (tid pid adr : Nat) (tail : List Byte) (k : Nat) :
    (frameBody tid pid adr tail)[k + 6]? = tail[k]? := rfl

/-- Settles O33: the frame is `frameOf` its body, and the body is the three digit pairs and the item. -/
theorem requestFrameLayout : Obligations.RequestFrameLayout := by
  intro tid pid adr item htid hpid hadr hitem
  have hlen := length_frameBody tid pid adr item
  have htail := getElem?_frameOf_tail 0x02 (frameBody tid pid adr item) (decide (pid = 1))
  have hend : 7 + item.length = (frameBody tid pid adr item).length + 1 := by omega
  refine ⟨_, buildRequest_natCast htid hpid hadr hitem, ?_, getElem?_frameOf_zero _ _ _, rfl, rfl, rfl, ?_, ?_, ?_⟩
  · simp only [length_frameOf, hlen, decide_eq_true_eq]
    omega
  · intro k hk
    rw [show 7 + k = k + 6 + 1 by omega, getElem?_frameOf_body _ _ (by omega), getElem?_frameBody_tail]
  · rintro rfl
    rw [hend, slice_frameOf_body, show 8 + item.length = (frameBody tid 1 adr item).length + 1 + 1 by omega, htail 1]
    simpa [hexPair] using htail 0
  · rw [hend, htail]
    by_cases hpid1 : pid = 1 <;> simp [hpid1, hexPair]

end Sys2Proof.Machine
end

section
/-! One flipped bit in the PID of an accepted frame (spec/30_encoding.md R109, spec/43_decoder.md R206 to R216).

`AcceptedWithChecksum` says on the frame alone what a successful PARSE with CKP says. A changed PID byte keeps the
shape of such a frame and loses its checksum, so that its payload takes in the two CRC characters; the three outcomes
are read off from that. -/

namespace Sys2Proof.Machine

/-! ## The decoder's checks -/

/-- The checks on length, sentinel and terminator (43_decoder.md R202 to R204). -/
structure FrameShaped (f : List Byte) : Prop where
  long : 8 ≤ f.length
  sentinel : byteAt f 0 = ACK ∨ byteAt f 0 = NAK
  terminator : byteAt f (f.length - 1) = ETX

/-- `ParseResponse` accepts `f`, and `f` carries a checksum. -/
structure AcceptedWithChecksum (p : Params) (f : List Byte) : Prop where
  shaped : FrameShaped f
  digits : p.strictDigits = true → frameDigits f = true
  hasChecksum : frameHasChecksum f = true
  room : 10 ≤ f.length
  crc : hexPair (frameChecksum f) = [byteAt f (f.length - 3), byteAt f (f.length - 2)]
  content : ∃ content, responseContent p f = .ok content

/-- The response that a frame with the variable part `content` decodes to (43_decoder.md R205 to R210). -/
def decodedFrame (f : List Byte) (content : ResponseContent) : Response :=
  { tid := frameTid f, pid := framePid f, adr := frameAdr f, content := content
    ck := frameHasChecksum f, sum := frameChecksum f, dig := frameDigits f }

/-- The digit check fails only where P_STRICT_DIGITS is on (43_decoder.md R206). -/
theorem digitCheck_passes_iff {digits strict : Bool} :
    ¬ (!digits && strict) = true ↔ (strict = true → digits = true) := by
  cases digits <;> cases strict <;> decide

theorem acceptedWithChecksum_of_parseResponse {p : Params} {f : List Byte} {r : Response}
    (h : parseResponse p f = .ok r) (hck : r.ck = true) : AcceptedWithChecksum p f := by
  obtain ⟨content, hcontent, rfl⟩ := parseResponse_ok h
  simp only at hck
  simp only [parseResponse, hck, Bool.true_and] at h
  iterate 6
    split at h
    next => cases h
  next hlong hsentinel hterminator hdigits hroom hcrc =>
    exact
      { shaped := ⟨by omega, by tauto, not_not.mp hterminator⟩
        digits := digitCheck_passes_iff.mp hdigits
        hasChecksum := hck
        room := by simpa using hroom
        crc := by simpa [frameCrcMatches] using hcrc
        content := ⟨content, hcontent⟩ }

theorem FrameShaped.parseResponse_malformedDigits {p : Params} {f : List Byte} (h : FrameShaped f)
    (hdigits : ¬ (p.strictDigits = true → frameDigits f = true)) : parseResponse p f = .error .malformedDigits := by
  have hlong := h.long
  have hsentinel := h.sentinel
  rw [parseResponse, if_neg (by omega), if_neg (by tauto), if_neg (not_not.mpr h.terminator),
    if_pos (not_not.mp (mt digitCheck_passes_iff.mp hdigits))]

/-- A frame without a checksum ends with its variable part (43_decoder.md R207, R209). -/
theorem FrameShaped.parseResponse_noChecksum {p : Params} {f : List Byte} (h : FrameShaped f)
    (hdigits : p.strictDigits = true → frameDigits f = true) (hck : frameHasChecksum f = false) :
    parseResponse p f = (responseContent p f).map (decodedFrame f) := by
  have hlong := h.long
  have hsentinel := h.sentinel
  rw [parseResponse, if_neg (by omega), if_neg (by tauto), if_neg (not_not.mpr h.terminator),
    if_neg (digitCheck_passes_iff.mpr hdigits), if_neg (by simp [hck]), if_neg (by simp [hck])]
  cases responseContent p f <;> rfl

/-! ## The variable part (43_decoder.md R211, R212) -/

/-- The ASCII check on the payload of an Ack fails only where P_ACK_ASCII_STRICT is on. -/
theorem responseContent_of_ack {f : List Byte} (hack : byteAt f 0 = ACK) (p : Params) :
    responseContent p f = if p.ackAsciiStrict = true → (framePayload f).all isAscii = true
      then .ok (.ack (framePayload f)) else .error .nonAsciiPayload := by
  simp only [responseContent, hack, if_true, ← List.not_all_eq_any_not]
  cases (framePayload f).all isAscii <;> cases p.ackAsciiStrict <;> rfl

theorem length_of_responseContent_nak {p : Params} {f : List Byte} {content : ResponseContent}
    (hnak : byteAt f 0 = NAK) (h : responseContent p f = .ok content) : (framePayload f).length = 1 := by
  simp only [responseContent, hnak] at h
  rw [if_neg (by decide)] at h
  split at h
  next code hpayload => rw [hpayload]; rfl
  next => cases h

theorem responseContent_nak_badPayload {p : Params} {f : List Byte} (hnak : byteAt f 0 = NAK)
    (hlen : (framePayload f).length ≠ 1) : responseContent p f = .error .badNakPayload := by
  simp only [responseContent, hnak]
  rw [if_neg (by decide)]
  split
  next code hpayload => simp [hpayload] at hlen
  next => rfl

/-! ## The payload and the CRC characters -/

theorem length_slice {bs : List Byte} {a b : Nat} (h : b ≤ bs.length) : (slice bs a b).length = b - a := by
  simp [slice, h]

theorem slice_append (bs : List Byte) {a b c : Nat} (hab : a ≤ b) (hbc : b ≤ c) :
    slice bs a b ++ slice bs b c = slice bs a c := by
  simp only [slice, List.drop_take]
  rw [show c - a = (b - a) + (c - b) by omega, List.take_add, List.drop_drop, Nat.add_sub_cancel' hab]

theorem slice_set_before (bs : List Byte) {a i : Nat} (c : Nat) (b : Byte) (h : i < a) :
    slice (bs.set i b) a c = slice bs a c := by
  unfold slice
  rw [List.take_set, List.drop_set, if_pos h]

theorem toNat_hexDigit_le {v : Nat} (h : v < 16) : (hexDigit v).toNat ≤ 0x46 := by
  interval_cases v <;> decide

theorem all_isAscii_hexPair (c : Byte) : (hexPair c).all isAscii = true := by
  rw [all_isAscii_iff]
  intro b hb
  rcases List.mem_pair.mp hb with rfl | rfl <;>
    exact (toNat_hexDigit_le (BitVec.isLt _)).trans (by decide)

theorem AcceptedWithChecksum.framePayload_eq {p : Params} {f : List Byte} (h : AcceptedWithChecksum p f) :
    framePayload f = slice f 7 (f.length - 3) := by
  rw [framePayload, if_pos h.hasChecksum]

/-- Between the fields and ETX stand the payload and the two CRC characters (30_encoding.md R107). -/
theorem AcceptedWithChecksum.slice_eq_payload_crc {p : Params} {f : List Byte} (h : AcceptedWithChecksum p f) :
    slice f 7 (f.length - 1) = framePayload f ++ hexPair (frameChecksum f) := by
  have hroom := h.room
  have hcrc := slice_two f (f.length - 3) (by omega)
  rw [show f.length - 3 + 2 = f.length - 1 by omega, show f.length - 3 + 1 = f.length - 2 by omega] at hcrc
  rw [h.framePayload_eq, h.crc, ← hcrc, slice_append f (by omega) (by omega)]

/-! ## A changed PID byte -/

section
variable {p : Params} {f : List Byte} {i : Nat} {b : Byte}

theorem byteAt_zero_set_pid (hlong : 8 ≤ f.length) (hi : i = 3 ∨ i = 4) : byteAt (f.set i b) 0 = byteAt f 0 := by
  rw [byteAt_set _ _ _ _ (by omega), if_neg (by omega)]

theorem FrameShaped.set_pid (h : FrameShaped f) (hi : i = 3 ∨ i = 4) : FrameShaped (f.set i b) := by
  have hlong := h.long
  refine ⟨by simpa using hlong, byteAt_zero_set_pid hlong hi ▸ h.sentinel, ?_⟩
  rw [List.length_set, byteAt_set _ _ _ _ (by omega), if_neg (by omega)]
  exact h.terminator

/-- The formula of R141 is injective in each of its two bytes, so a changed PID byte is another pid. -/
theorem frameHasChecksum_set_pid (hlong : 8 ≤ f.length) (hck : frameHasChecksum f = true) (hi : i = 3 ∨ i = 4)
    (hb : b ≠ byteAt f i) : frameHasChecksum (f.set i b) = false := by
  have hset := fun j => byteAt_set f i j b (by omega)
  have hpid : framePid f = 1 := of_decide_eq_true hck
  have hb' : b.toNat ≠ (byteAt f i).toNat := mt BitVec.eq_of_toNat_eq hb
  refine decide_eq_false ?_
  simp only [framePid, digitPairDecode, hset] at hpid ⊢
  rcases hi with rfl | rfl <;> simp <;> omega

theorem frameDigits_set_pid (hlong : 8 ≤ f.length) (hdigits : frameDigits f = true) (hi : i = 3 ∨ i = 4) :
    frameDigits (f.set i b) = isDigit b := by
  have hset := fun j => byteAt_set f i j b (by omega)
  simp only [frameDigits, digitsValid, Bool.and_eq_true, hset] at hdigits ⊢
  rcases hi with rfl | rfl <;> simp [hdigits]

/-- Without a checksum the payload reaches up to ETX, the two characters that were the CRC field included (R209). -/
theorem AcceptedWithChecksum.framePayload_set_pid (h : AcceptedWithChecksum p f) (hi : i = 3 ∨ i = 4)
    (hb : b ≠ byteAt f i) : framePayload (f.set i b) = slice f 7 (f.length - 1) := by
  have hck := frameHasChecksum_set_pid h.shaped.long h.hasChecksum hi hb
  rw [framePayload, hck, if_neg (by decide), List.length_set, slice_set_before _ _ _ (by omega)]

/-- The digit check on the changed frame is the one on the changed byte (R206). -/
theorem AcceptedWithChecksum.digits_set_pid_iff (h : AcceptedWithChecksum p f) (hi : i = 3 ∨ i = 4) :
    (p.strictDigits = true → frameDigits (f.set i b) = true) ↔ ¬ (p.strictDigits = true ∧ isDigit b = false) := by
  rw [not_and, Bool.not_eq_false]
  exact forall_congr' fun hstrict => by rw [frameDigits_set_pid h.shaped.long (h.digits hstrict) hi]

theorem AcceptedWithChecksum.parseResponse_set_pid_noDigit (h : AcceptedWithChecksum p f) (hi : i = 3 ∨ i = 4)
    (hdigit : p.strictDigits = true ∧ isDigit b = false) :
    parseResponse p (f.set i b) = .error .malformedDigits :=
  (h.shaped.set_pid hi).parseResponse_malformedDigits fun hpass => (h.digits_set_pid_iff hi).mp hpass hdigit

/-- Past the digit check, the changed frame ends with its variable part. -/
theorem AcceptedWithChecksum.parseResponse_set_pid (h : AcceptedWithChecksum p f) (hi : i = 3 ∨ i = 4)
    (hb : b ≠ byteAt f i) (hdigit : ¬ (p.strictDigits = true ∧ isDigit b = false)) :
    parseResponse p (f.set i b) = (responseContent p (f.set i b)).map (decodedFrame (f.set i b)) :=
  (h.shaped.set_pid hi).parseResponse_noChecksum ((h.digits_set_pid_iff hi).mpr hdigit)
    (frameHasChecksum_set_pid h.shaped.long h.hasChecksum hi hb)

/-- The payload of the NAK frame was one byte; with the CRC characters it is three. -/
theorem AcceptedWithChecksum.responseContent_set_pid_nak (h : AcceptedWithChecksum p f) (hi : i = 3 ∨ i = 4)
    (hb : b ≠ byteAt f i) (hnak : byteAt f 0 = NAK) : responseContent p (f.set i b) = .error .badNakPayload := by
  obtain ⟨content, hcontent⟩ := h.content
  apply responseContent_nak_badPayload ((byteAt_zero_set_pid h.shaped.long hi).trans hnak)
  rw [h.framePayload_set_pid hi hb, h.slice_eq_payload_crc, List.length_append,
    length_of_responseContent_nak hnak hcontent, hexPair_length]
  decide

/-- The CRC characters are ASCII, so the longer payload of the ACK frame passes the check the payload passed. -/
theorem AcceptedWithChecksum.responseContent_set_pid_ack (h : AcceptedWithChecksum p f) (hi : i = 3 ∨ i = 4)
    (hb : b ≠ byteAt f i) (hack : byteAt f 0 = ACK) :
    responseContent p (f.set i b) = .ok (.ack (slice f 7 (f.length - 1))) := by
  obtain ⟨content, hcontent⟩ := h.content
  rw [responseContent_of_ack hack] at hcontent
  rw [responseContent_of_ack ((byteAt_zero_set_pid h.shaped.long hi).trans hack), h.framePayload_set_pid hi hb, if_pos]
  intro hstrict
  split at hcontent
  next hascii => rw [h.slice_eq_payload_crc, List.all_append, hascii hstrict, all_isAscii_hexPair, Bool.and_self]
  next => cases hcontent

end

/-! ## PARSE on the two frames -/

theorem execParse_of_input {s : State} {f : List Byte} (h : InputIs s f) :
    exec .parse s = .next (finish (parseResult s.cfg f) s) := by
  obtain ⟨hlen, hfits, hbytes⟩ := h
  exact runOnInput_of_input hlen hfits hbytes _

theorem errorStatus_ne_zero (e : ErrorCode) : errorStatus e ≠ 0x00 := by cases e <;> decide

theorem flagsOf_ckp (dig ckp : Bool) : (flagsOf dig ckp).getLsbD 1 = ckp := by cases dig <;> cases ckp <;> rfl

/-- A PARSE that leaves STATUS OK decoded its input, and shows in CKP whether that carries a checksum (R216). -/
theorem parseResponse_of_finish_ok {p : Params} {f : List Byte} {s : State}
    (h : (finish (parseResult p f) s).bank.status = 0x00) :
    ∃ r, parseResponse p f = .ok r ∧ (finish (parseResult p f) s).bank.flags.getLsbD 1 = r.ck := by
  rcases parseResult_cases p f with ⟨e, -, hresult⟩ | ⟨r, v, hr, -, hresult⟩ | ⟨r, c, x, hr, -, hresult⟩ <;>
    rw [hresult] at h ⊢
  case inl => exact absurd h (errorStatus_ne_zero e)
  all_goals exact ⟨r, hr, flagsOf_ckp _ _⟩

theorem errorCompletion_of_parseResponse {p : Params} {f : List Byte} {e : ErrorCode}
    (h : parseResponse p f = .error e) (s : State) :
    ErrorCompletion s (finish (parseResult p f) s) (errorStatus e) := by
  rw [parseResult, h]
  exact raiseError_completion e s

theorem parseResult_of_ack {p : Params} {f v : List Byte} {r : Response} (h : parseResponse p f = .ok r)
    (hv : r.content = .ack v) : parseResult p f = .ok ({ responseBank r with resKind := 1 }, v) := by
  rw [parseResult, h]
  simp only [hv]

/-- What PARSE leaves of an Ack that carries no checksum (R216). -/
theorem complete_ack_noChecksum {r : Response} {value : List Byte} (hck : r.ck = false)
    (hlen : value.length < 65536) (s : State) :
    let t := complete { responseBank r with resKind := 1 } value s
    t.bank.status = 0x00 ∧ t.bank.resKind = 1 ∧ t.bank.flags.getLsbD 1 = false ∧ t.bank.resVal = 0 ∧
      t.bank.olen.toNat = value.length ∧ ObufHolds t value ∧ CommandFrame s t value.length := by
  refine ⟨rfl, rfl, (flagsOf_ckp _ _).trans hck, if_neg (by simp [hck]), ?_, complete_obufHolds _ _ _,
    complete_frame _ _ _⟩
  rw [← finish_ok, finish_ok_olen, Nat.mod_eq_of_lt hlen]

theorem xor_bit_ne (b : Byte) {k : Nat} (hk : k < 8) : b ^^^ (1#8 <<< k) ≠ b := by
  intro h
  have hbit : 1#8 <<< k = 0#8 := (BitVec.xor_right_inj b).mp (h.trans BitVec.xor_zero.symm)
  interval_cases k <;> exact absurd hbit (by decide)

/-- Settles O56, by the three outcomes of a changed PID byte. -/
theorem pidBitFlipRemovesTheChecksum : Obligations.PidBitFlipRemovesTheChecksum := by
  intro s t u f i k hf hparse hstatus hckp hi hk b hg hcfg
  rw [execParse_of_input hf] at hparse
  cases hparse
  obtain ⟨r, hr, hflags⟩ := parseResponse_of_finish_ok hstatus
  have hacc : AcceptedWithChecksum s.cfg f := acceptedWithChecksum_of_parseResponse hr (hflags.symm.trans hckp)
  have hb : b ≠ byteAt f i := xor_bit_ne _ hk
  refine ⟨_, execParse_of_input hg, ?_, ?_, ?_⟩ <;> rw [hcfg]
  · intro hdigit
    exact errorCompletion_of_parseResponse (hacc.parseResponse_set_pid_noDigit hi hdigit) u
  · intro hdigit hnak
    refine errorCompletion_of_parseResponse (e := .badNakPayload) ?_ u
    rw [hacc.parseResponse_set_pid hi hb hdigit, hacc.responseContent_set_pid_nak hi hb hnak]
    rfl
  · intro hdigit hack
    have hresponse := hacc.parseResponse_set_pid hi hb hdigit
    rw [hacc.responseContent_set_pid_ack hi hb hack] at hresponse
    rw [parseResult_of_ack hresponse rfl, finish_ok]
    have hvalue : (slice f 7 (f.length - 1)).length = f.length - 8 := length_slice (by omega)
    have hword : f.length < 65536 := by
      obtain ⟨hlen, -⟩ := hg
      rw [List.length_set] at hlen
      exact hlen ▸ u.ilen.isLt
    exact hvalue ▸ complete_ack_noChecksum
      (frameHasChecksum_set_pid hacc.shaped.long hacc.hasChecksum hi hb) (by omega) u

end Sys2Proof.Machine
end

section
/-! The digit-pair codec and its two commands: the statements of spec/40_digit_pair.md.

The idea behind the codec statements is the one law `digitPairEncode_eq_ok_iff`: the encoder gives the bytes b0 b1 for n
exactly when both are digits and decode to n. The two directions of the round trip (R142, R143) are its two readings. -/

namespace Sys2Proof.Machine

/-! ## Decoding (40_digit_pair.md R141) -/

theorem digitPairDecode_range (b0 b1 : Byte) : -528 ≤ digitPairDecode b0 b1 ∧ digitPairDecode b0 b1 ≤ 2277 := by
  have h0 := b0.isLt
  have h1 := b1.isLt
  unfold digitPairDecode
  omega

theorem fromS16_s16_digitPairDecode (b0 b1 : Byte) :
    fromS16 (s16 (digitPairDecode b0 b1)) = digitPairDecode b0 b1 := by
  obtain ⟨hlow, hhigh⟩ := digitPairDecode_range b0 b1
  exact fromS16_s16 (by omega) (by omega)

/-- Settles O22. -/
theorem digitPairDecodeIsExact : Obligations.DigitPairDecodeIsExact := by
  refine ⟨fun b0 b1 => ?_, rfl, rfl⟩
  obtain ⟨hlow, hhigh⟩ := digitPairDecode_range b0 b1
  exact ⟨rfl, hlow, hhigh, fromS16_s16_digitPairDecode b0 b1⟩

/-! ## Encoding (40_digit_pair.md R140) -/

theorem digitPairEncode_outOfRange {n : Int} (h : n < 0 ∨ 99 < n) :
    digitPairEncode n = .error .invalidFieldRange := if_pos h

theorem byte_eq_ofNat_iff {b : Byte} {k : Nat} (hk : k < 256) : b = BitVec.ofNat 8 k ↔ b.toNat = k := by
  rw [← BitVec.toNat_inj, BitVec.toNat_ofNat, Nat.mod_eq_of_lt hk]

/-- Which two bytes the encoder gives: the tens and the units above 0x30. -/
theorem digitPairEncode_natCast_eq_ok_iff {n : Nat} (hn : n ≤ 99) {b0 b1 : Byte} :
    digitPairEncode n = .ok [b0, b1] ↔ b0.toNat = 0x30 + n / 10 ∧ b1.toNat = 0x30 + n % 10 := by
  rw [digitPairEncode_natCast hn, ← byte_eq_ofNat_iff (by omega), ← byte_eq_ofNat_iff (by omega)]
  simp [twoDigits, eq_comm]

theorem exists_digitPairEncode_natCast {n : Nat} (hn : n ≤ 99) : ∃ b0 b1 : Byte, digitPairEncode n = .ok [b0, b1] :=
  ⟨_, _, digitPairEncode_natCast hn⟩

/-- Settles O21. -/
theorem digitPairEncodeGivesTwoDigits : Obligations.DigitPairEncodeGivesTwoDigits := by
  refine fun n => ⟨fun h0 h99 => ?_, digitPairEncode_outOfRange⟩
  lift n to Nat using h0
  have hn : n ≤ 99 := by omega
  obtain ⟨b0, b1, henc⟩ := exists_digitPairEncode_natCast hn
  obtain ⟨htens, hunits⟩ := (digitPairEncode_natCast_eq_ok_iff hn).mp henc
  exact ⟨b0, b1, henc, by omega, by omega⟩

/-! ## Encoding and decoding are inverse on digits (40_digit_pair.md R142, R143) -/

theorem digitsValid_iff {b0 b1 : Byte} : digitsValid b0 b1 = true ↔
    (0x30 ≤ b0.toNat ∧ b0.toNat ≤ 0x39) ∧ (0x30 ≤ b1.toNat ∧ b1.toNat ≤ 0x39) := by
  simp [digitsValid, isDigit]

theorem digitPairDecode_range_of_digits {b0 b1 : Byte} (h : digitsValid b0 b1 = true) :
    0 ≤ digitPairDecode b0 b1 ∧ digitPairDecode b0 b1 ≤ 99 := by
  obtain ⟨hb0, hb1⟩ := digitsValid_iff.mp h
  unfold digitPairDecode
  omega

/-- Two bytes are the tens and the units of n exactly when they are digits that decode to n. -/
theorem tens_units_iff_digits_decode {n : Nat} (hn : n ≤ 99) {b0 b1 : Byte} :
    (b0.toNat = 0x30 + n / 10 ∧ b1.toNat = 0x30 + n % 10) ↔ digitsValid b0 b1 = true ∧ digitPairDecode b0 b1 = n := by
  rw [digitsValid_iff, digitPairDecode]
  omega

/-- The encoder gives b0 b1 for n exactly when both are digits and decode to n. -/
theorem digitPairEncode_eq_ok_iff {n : Int} {b0 b1 : Byte} :
    digitPairEncode n = .ok [b0, b1] ↔ digitsValid b0 b1 = true ∧ digitPairDecode b0 b1 = n := by
  by_cases hrange : n < 0 ∨ 99 < n
  case pos =>
    rw [digitPairEncode_outOfRange hrange]
    refine iff_of_false nofun ?_
    rintro ⟨hdigits, rfl⟩
    have := digitPairDecode_range_of_digits hdigits
    omega
  case neg =>
    lift n to Nat using by omega
    have hn : n ≤ 99 := by omega
    exact (digitPairEncode_natCast_eq_ok_iff hn).trans (tens_units_iff_digits_decode hn)

/-- Settles O23. -/
theorem digitBytesDecodeInRangeAndEncodeBack : Obligations.DigitBytesDecodeInRangeAndEncodeBack := by
  refine ⟨fun _ _ => digitsValid_iff, fun b0 b1 hdigits => ?_, rfl, rfl⟩
  obtain ⟨hlow, hhigh⟩ := digitPairDecode_range_of_digits hdigits
  exact ⟨hlow, hhigh, digitPairEncode_eq_ok_iff.mpr ⟨hdigits, rfl⟩⟩

/-- Settles O24. -/
theorem digitPairRoundTrip : Obligations.DigitPairRoundTrip := by
  intro n h0 h99
  lift n to Nat using h0
  obtain ⟨b0, b1, henc⟩ := exists_digitPairEncode_natCast (n := n) (by omega)
  obtain ⟨hdigits, hdecode⟩ := digitPairEncode_eq_ok_iff.mp henc
  exact ⟨b0, b1, henc, hdecode, hdigits⟩

/-! ## DPENC and DPDEC (40_digit_pair.md R144, R145) -/

theorem dpencResult_natCast {n : Nat} (hn : n ≤ 99) : dpencResult n = .ok (ResultBank.zero, twoDigits n) := by
  rw [dpencResult, digitPairEncode_natCast hn]

theorem dpencResult_outOfRange {n : Int} (h : n < 0 ∨ 99 < n) : dpencResult n = .error .invalidFieldRange := by
  rw [dpencResult, digitPairEncode_outOfRange h]

theorem exec_dpenc_of_le {s : State} (h : s.arg0.toNat ≤ 99) :
    exec .dpenc s = .next (complete ResultBank.zero (twoDigits s.arg0.toNat) s) := by
  rw [exec_eq_outcomeOf, execEnding, unsignedOperand, dpencResult_natCast h]
  rfl

theorem exec_dpenc_of_gt {s : State} (h : 99 < s.arg0.toNat) :
    exec .dpenc s = .next (raiseError .invalidFieldRange s) := by
  rw [exec_eq_outcomeOf, execEnding, unsignedOperand, dpencResult_outOfRange (.inr (by omega))]
  rfl

/-- Settles O26. -/
theorem dpencEncodesArgZero : Obligations.DpencEncodesArgZero := by
  refine fun s => ⟨fun h => ?_, fun h => ?_⟩
  · exact ⟨_, exec_dpenc_of_le h, rfl, complete_obufHolds _ _ s, complete_frame _ _ s⟩
  · exact ⟨_, exec_dpenc_of_gt h, raiseError_completion .invalidFieldRange s⟩

/-- The result bank that DPDEC leaves. -/
theorem dpdecResult_eq (b0 b1 : Byte) : dpdecResult b0 b1 =
    .ok ({ ResultBank.zero with
            resVal := s16 (digitPairDecode b0 b1), flags := flagBits (isDigit b0 && isDigit b1) false }, []) := by
  rw [← flagsOf_eq_flagBits]
  rfl

/-- Settles O27. -/
theorem dpdecDecodesArgs : Obligations.DpdecDecodesArgs := by
  intro s
  have hrun : exec .dpdec s = .next (finish (dpdecResult s.arg0 s.arg1) s) := exec_eq_outcomeOf .dpdec s
  rw [dpdecResult_eq] at hrun
  exact ⟨_, hrun, rfl, fromS16_s16_digitPairDecode s.arg0 s.arg1, complete_frame _ _ s⟩

end Sys2Proof.Machine
end

section
/-! The checksum, its rendering and the command CKSUM: the statements of spec/41_checksum.md.

The idea behind the laws is `checksum_eq_sum`: the checksum is the sum of the bytes in the commutative group of 8-bit
words, so that chunking, order and cancellation are those of a group. One replaced byte then changes the checksum
(`checksum_set_ne`), whichever bits of it differ; on a frame, `AcceptedWithChecksum` turns that into the four outcomes
of one flipped bit outside PID. -/

namespace Sys2Proof.Machine

/-! ## The sum (41_checksum.md R160, R163) -/

theorem byteSum_eq_sum (bs : List Byte) : byteSum bs = (bs.map BitVec.toNat).sum := by
  induction bs with
  | nil => rfl
  | cons b bs ih => rw [byteSum, ih, List.map_cons, List.sum_cons]

theorem checksum_toNat_eq_sum (bs : List Byte) : (checksum bs).toNat = (bs.map BitVec.toNat).sum % 256 := by
  rw [checksum_toNat, byteSum_eq_sum]

/-- Settles O28. -/
theorem checksumIsSumModulo256 : Obligations.ChecksumIsSumModulo256 := ⟨checksum_toNat_eq_sum, rfl⟩

theorem checksum_cons (b : Byte) (bs : List Byte) : checksum (b :: bs) = b + checksum bs := by
  apply BitVec.eq_of_toNat_eq
  rw [BitVec.toNat_add, checksum_toNat, checksum_toNat, byteSum, Nat.add_mod_mod]

/-- The checksum is the sum in the group of 8-bit words. -/
theorem checksum_eq_sum (bs : List Byte) : checksum bs = bs.sum := by
  induction bs with
  | nil => rfl
  | cons b bs ih => rw [checksum_cons, ih, List.sum_cons]

/-- Replacing one byte changes the checksum by the difference of the two bytes. -/
theorem checksum_set (bs : List Byte) {i : Nat} (b : Byte) (hi : i < bs.length) :
    checksum (bs.set i b) + byteAt bs i = checksum bs + b := by
  apply BitVec.eq_of_toNat_eq
  rw [BitVec.toNat_add, BitVec.toNat_add, checksum_toNat, checksum_toNat, Nat.mod_add_mod, Nat.mod_add_mod,
    byteSum_set bs i b hi]

theorem checksum_set_ne {bs : List Byte} {i : Nat} {b : Byte} (hi : i < bs.length) (hb : b ≠ byteAt bs i) :
    checksum (bs.set i b) ≠ checksum bs := by
  intro heq
  have hset := checksum_set bs b hi
  rw [heq] at hset
  exact hb (add_left_cancel hset).symm

/-- Settles O31: (a) to (c) are laws of a sum in a commutative group, (e) is `checksum_set_ne` on a flipped bit; two
flips of bit 7 add 256. -/
theorem checksumLaws : Obligations.ChecksumLaws := by
  refine ⟨fun bs => ?_, fun xs ys => ?_, fun xs ys hperm => ?_, fun bs => ?_, fun bs i k hi hk => ?_, ?_⟩
  · rw [checksum_eq_sum, List.sum_eq_foldl]
  · rw [checksum_eq_sum, List.sum_append, BitVec.toNat_add, ← checksum_eq_sum, ← checksum_eq_sum]
  · rw [checksum_eq_sum, checksum_eq_sum, hperm.sum_eq]
  · exact Nat.le_of_lt_succ (checksum bs).isLt
  · exact checksum_set_ne hi (xor_bit_ne _ hk)
  · exact ⟨[0x00, 0x00], [0x80, 0x80], by decide⟩

/-! ## The rendering (41_checksum.md R161) -/

theorem hexDigit_toNat {v : Nat} (hv : v ≤ 15) :
    (hexDigit v).toNat = if v ≤ 9 then 0x30 + v else 0x41 + (v - 10) := by
  unfold hexDigit
  split <;> rw [BitVec.toNat_ofNat] <;> omega

theorem hexDigit_range {v : Nat} (hv : v ≤ 15) :
    (0x30 ≤ (hexDigit v).toNat ∧ (hexDigit v).toNat ≤ 0x39) ∨
      (0x41 ≤ (hexDigit v).toNat ∧ (hexDigit v).toNat ≤ 0x46) := by
  rw [hexDigit_toNat hv]
  split <;> omega

theorem hexDigit_inj {v w : Nat} (hv : v ≤ 15) (hw : w ≤ 15) (h : hexDigit v = hexDigit w) : v = w := by
  have hnat := congrArg BitVec.toNat h
  rw [hexDigit_toNat hv, hexDigit_toNat hw] at hnat
  split at hnat <;> split at hnat <;> omega

/-- The high nibble is the quotient by 16, the low one the remainder. -/
theorem hexPair_eq (c : Byte) : hexPair c = [hexDigit (c.toNat / 16), hexDigit (c.toNat % 16)] := by
  have hc := c.isLt
  have hhigh : (c.extractLsb' 4 4).toNat = c.toNat / 16 := by
    rw [BitVec.extractLsb'_toNat, Nat.shiftRight_eq_div_pow]
    omega
  have hlow : (c.extractLsb' 0 4).toNat = c.toNat % 16 := by
    rw [BitVec.extractLsb'_toNat, Nat.shiftRight_zero]
  rw [hexPair, hhigh, hlow]

/-- Settles O29. -/
theorem hexPairIsUppercaseHex : Obligations.HexPairIsUppercaseHex := by
  refine ⟨fun _ => hexDigit_toNat, hexPair_eq, fun c b hb => ?_⟩
  have hc := c.isLt
  rw [hexPair_eq] at hb
  rcases List.mem_pair.mp hb with rfl | rfl <;> exact hexDigit_range (by omega)

theorem hexPair_injective : Function.Injective hexPair := by
  intro c d h
  have hc := c.isLt
  have hd := d.isLt
  rw [hexPair_eq, hexPair_eq] at h
  injection h with hhigh hrest
  injection hrest with hlow
  have hdiv := hexDigit_inj (by omega) (by omega) hhigh
  have hmod := hexDigit_inj (by omega) (by omega) hlow
  exact BitVec.eq_of_toNat_eq (by omega)

/-- Settles O30. -/
theorem hexPairIsInjective : Obligations.HexPairIsInjective := fun _ _ h => hexPair_injective h

/-! ## CKSUM (41_checksum.md R164) -/

theorem execCksum_of_input {s : State} {bs : List Byte} (h : InputIs s bs) :
    exec .cksum s = .next (finish (cksumResult bs) s) := by
  obtain ⟨hlen, hfits, hbytes⟩ := h
  exact runOnInput_of_input hlen hfits hbytes _

theorem ofNat_toNat_zext16 (b : Byte) : BitVec.ofNat 8 (zext16 b).toNat = b := by
  rw [zext16_toNat, BitVec.ofNat_toNat, BitVec.setWidth_eq]

/-- Settles O32. -/
theorem cksumSumsTheInput : Obligations.CksumSumsTheInput := by
  refine fun s => ⟨fun bs hinput => ?_, fun hlong => ?_⟩
  · refine ⟨_, execCksum_of_input hinput, rfl, ?_, ?_, complete_frame _ _ s⟩
    · exact (zext16_toNat _).trans (checksum_toNat_eq_sum bs)
    · have hobuf : ObufHolds (finish (cksumResult bs) s) (hexPair (checksum bs)) := complete_obufHolds _ _ s
      rw [← ofNat_toNat_zext16 (checksum bs)] at hobuf
      exact hobuf
  · exact ⟨_, runOnInput_badLength hlong cksumResult, raiseError_completion .badLength s⟩

/-! ## The decoder's errors on the frame, before the payload (43_decoder.md R203 to R210) -/

theorem parseResponse_unknownSentinel {f : List Byte} (p : Params) (hlong : 8 ≤ f.length)
    (hsentinel : byteAt f 0 ≠ ACK ∧ byteAt f 0 ≠ NAK) : parseResponse p f = .error .unknownSentinel := by
  rw [parseResponse, if_neg (by omega), if_pos hsentinel]

theorem parseResponse_missingTerminator {f : List Byte} (p : Params) (hlong : 8 ≤ f.length)
    (hsentinel : byteAt f 0 = ACK ∨ byteAt f 0 = NAK) (hterminator : byteAt f (f.length - 1) ≠ ETX) :
    parseResponse p f = .error .missingTerminator := by
  rw [parseResponse, if_neg (by omega), if_neg (by tauto), if_pos hterminator]

theorem FrameShaped.parseResponse_checksumMismatch {p : Params} {f : List Byte} (h : FrameShaped f)
    (hdigits : p.strictDigits = true → frameDigits f = true) (hck : frameHasChecksum f = true)
    (hroom : 10 ≤ f.length) (hcrc : frameCrcMatches f = false) : parseResponse p f = .error .checksumMismatch := by
  have hlong := h.long
  have hsentinel := h.sentinel
  rw [parseResponse, if_neg (by omega), if_neg (by tauto), if_neg (not_not.mpr h.terminator),
    if_neg (digitCheck_passes_iff.mpr hdigits), if_neg (by simp [hroom]), if_pos (by simp [hck, hcrc])]

/-- The digit check reads bytes 1 to 6 (43_decoder.md R206). -/
theorem frameDigits_iff {f : List Byte} :
    frameDigits f = true ↔ ∀ j, 1 ≤ j → j ≤ 6 → isDigit (byteAt f j) = true := by
  simp only [frameDigits, digitsValid, Bool.and_eq_true]
  constructor
  · rintro ⟨⟨⟨h1, h2⟩, h3, h4⟩, h5, h6⟩ j hlow hhigh
    interval_cases j <;> assumption
  · intro h
    exact ⟨⟨⟨h 1 (by decide) (by decide), h 2 (by decide) (by decide)⟩, h 3 (by decide) (by decide),
      h 4 (by decide) (by decide)⟩, h 5 (by decide) (by decide), h 6 (by decide) (by decide)⟩

theorem byteAt_slice {f : List Byte} {a c j : Nat} (h : a + j < c) : byteAt (slice f a c) j = byteAt f (a + j) := by
  simp [byteAt, slice, List.getElem?_drop, List.getElem?_take_of_lt h]

/-! ## One changed byte outside PID -/

/-- ACK and NAK differ in three bits, so no flipped bit leaves a sentinel a sentinel (R203). -/
theorem xor_bit_not_sentinel {c : Byte} (h : c = ACK ∨ c = NAK) {k : Nat} (hk : k < 8) :
    c ^^^ (1#8 <<< k) ≠ ACK ∧ c ^^^ (1#8 <<< k) ≠ NAK := by
  rcases h with rfl | rfl <;> interval_cases k <;> decide

section
variable {p : Params} {f : List Byte} {i : Nat} {b : Byte}

theorem AcceptedWithChecksum.parseResponse_set_sentinel (h : AcceptedWithChecksum p f)
    (hb : b ≠ ACK ∧ b ≠ NAK) : parseResponse p (f.set 0 b) = .error .unknownSentinel := by
  have hlong := h.shaped.long
  refine parseResponse_unknownSentinel p (by simpa using hlong) ?_
  rwa [byteAt_set _ _ _ _ (by omega), if_pos rfl]

theorem AcceptedWithChecksum.parseResponse_set_terminator (h : AcceptedWithChecksum p f)
    (hb : b ≠ byteAt f (f.length - 1)) : parseResponse p (f.set (f.length - 1) b) = .error .missingTerminator := by
  have hlong := h.shaped.long
  have hset := fun j => byteAt_set f (f.length - 1) j b (by omega)
  refine parseResponse_missingTerminator p (by simpa using hlong) ?_ ?_
  · rw [hset, if_neg (by omega)]
    exact h.shaped.sentinel
  · rw [List.length_set, hset, if_pos rfl, ← h.shaped.terminator]
    exact hb

theorem FrameShaped.set_inside (h : FrameShaped f) (hfirst : 0 < i) (hlast : i < f.length - 1) :
    FrameShaped (f.set i b) := by
  have hset := fun j => byteAt_set f i j b (by omega)
  refine ⟨by simpa using h.long, ?_, ?_⟩
  · rw [hset, if_neg (by omega)]
    exact h.sentinel
  · rw [List.length_set, hset, if_neg (by omega)]
    exact h.terminator

/-- The checksum-presence decision reads the PID bytes alone (43_decoder.md R207). -/
theorem frameHasChecksum_set_of_ne_pid (hi : i < f.length) (h3 : i ≠ 3) (h4 : i ≠ 4) :
    frameHasChecksum (f.set i b) = frameHasChecksum f := by
  have hpid : framePid (f.set i b) = framePid f := by
    simp only [framePid, byteAt_set f i _ b hi, if_neg h3, if_neg h4]
  rw [frameHasChecksum, hpid, frameHasChecksum]

/-- The digit check on the changed frame is the one on the changed byte, if it is a field byte (R206). -/
theorem AcceptedWithChecksum.digits_set_iff (h : AcceptedWithChecksum p f) (hfirst : 0 < i) (hi : i < f.length) :
    (p.strictDigits = true → frameDigits (f.set i b) = true) ↔
      ¬ (p.strictDigits = true ∧ i ≤ 6 ∧ isDigit b = false) := by
  rw [not_and, not_and, Bool.not_eq_false]
  refine forall_congr' fun hstrict => ?_
  have hdigits := frameDigits_iff.mp (h.digits hstrict)
  simp only [frameDigits_iff, byteAt_set f i _ b hi]
  constructor
  · intro hset hfield
    simpa using hset i hfirst hfield
  · intro hbyte j hlow hhigh
    split
    next hij => exact hbyte (hij ▸ hhigh)
    next => exact hdigits j hlow hhigh

/-- A changed byte of the region changes the checksum under the same CRC characters; a changed CRC character stands
beside the same checksum (43_decoder.md R210). -/
theorem AcceptedWithChecksum.frameCrcMatches_set (h : AcceptedWithChecksum p f) (hb : b ≠ byteAt f i)
    (hfirst : 0 < i) (hlast : i < f.length - 1) (h3 : i ≠ 3) (h4 : i ≠ 4) :
    frameCrcMatches (f.set i b) = false := by
  have hroom := h.room
  have hset := fun j => byteAt_set f i j b (by omega)
  have hck' : frameHasChecksum (f.set i b) = true :=
    (frameHasChecksum_set_of_ne_pid (by omega) h3 h4).trans h.hasChecksum
  have hcrc := h.crc
  refine decide_eq_false ?_
  rw [frameChecksum, if_pos h.hasChecksum] at hcrc
  rw [frameChecksum, if_pos hck', List.length_set, hset, hset]
  by_cases hregion : i < f.length - 3
  · rw [if_neg (by omega), if_neg (by omega), ← hcrc, slice_set_inside _ _ _ _ _ hfirst]
    refine hexPair_injective.ne (checksum_set_ne ?_ ?_)
    · rw [length_slice (by omega)]
      omega
    · rwa [byteAt_slice (by omega), Nat.add_sub_cancel' hfirst]
  · rw [slice_set_after _ _ _ _ _ (by omega), hcrc]
    intro heq
    injection heq with hhigh hrest
    injection hrest with hlow
    rcases (by omega : i = f.length - 3 ∨ i = f.length - 2) with rfl | rfl
    · rw [if_pos rfl] at hhigh
      exact hb hhigh.symm
    · rw [if_pos rfl] at hlow
      exact hb hlow.symm

theorem AcceptedWithChecksum.parseResponse_set_fieldNoDigit (h : AcceptedWithChecksum p f) (hfirst : 0 < i)
    (hlast : i < f.length - 1) (hdigit : p.strictDigits = true ∧ i ≤ 6 ∧ isDigit b = false) :
    parseResponse p (f.set i b) = .error .malformedDigits :=
  (h.shaped.set_inside hfirst hlast).parseResponse_malformedDigits fun hpass =>
    (h.digits_set_iff hfirst (by omega)).mp hpass hdigit

theorem AcceptedWithChecksum.parseResponse_set_inside (h : AcceptedWithChecksum p f) (hb : b ≠ byteAt f i)
    (hfirst : 0 < i) (hlast : i < f.length - 1) (h3 : i ≠ 3) (h4 : i ≠ 4)
    (hdigit : ¬ (p.strictDigits = true ∧ i ≤ 6 ∧ isDigit b = false)) :
    parseResponse p (f.set i b) = .error .checksumMismatch :=
  (h.shaped.set_inside hfirst hlast).parseResponse_checksumMismatch
    ((h.digits_set_iff hfirst (by omega)).mpr hdigit)
    ((frameHasChecksum_set_of_ne_pid (by omega) h3 h4).trans h.hasChecksum)
    (by simpa using h.room) (h.frameCrcMatches_set hb hfirst hlast h3 h4)

end

/-- A PARSE that leaves STATUS OK and CKP accepted its input with a checksum (43_decoder.md R216). -/
theorem acceptedWithChecksum_of_exec {s t : State} {f : List Byte} (hf : InputIs s f)
    (hparse : exec .parse s = .next t) (hstatus : t.bank.status = 0x00) (hckp : t.bank.flags.getLsbD 1 = true) :
    AcceptedWithChecksum s.cfg f := by
  rw [execParse_of_input hf] at hparse
  cases hparse
  obtain ⟨r, hr, hflags⟩ := parseResponse_of_finish_ok hstatus
  exact acceptedWithChecksum_of_parseResponse hr (hflags.symm.trans hckp)

/-- Settles O43, by where the flipped bit stands: the sentinel, ETX, a field byte that is no digit any more, or else
the checksum region and the CRC field. -/
theorem singleBitFlipOutsidePidIsDetected : Obligations.SingleBitFlipOutsidePidIsDetected := by
  intro s t u f i k hf hparse hstatus hckp hi h3 h4 hk b hg hcfg
  have hacc := acceptedWithChecksum_of_exec hf hparse hstatus hckp
  have hb : b ≠ byteAt f i := xor_bit_ne _ hk
  refine ⟨_, execParse_of_input hg, ?_⟩
  rw [hcfg]
  split_ifs with hfirst hlast hdigit
  · subst hfirst
    exact errorCompletion_of_parseResponse
      (hacc.parseResponse_set_sentinel (xor_bit_not_sentinel hacc.shaped.sentinel hk)) u
  · subst hlast
    exact errorCompletion_of_parseResponse (hacc.parseResponse_set_terminator hb) u
  · exact errorCompletion_of_parseResponse
      (hacc.parseResponse_set_fieldNoDigit (by omega) (by omega) hdigit) u
  · exact errorCompletion_of_parseResponse
      (hacc.parseResponse_set_inside hb (by omega) (by omega) h3 h4 hdigit) u

end Sys2Proof.Machine
end

section
/-! The command BUILD: its completion on an admitted input (spec/42_encoder.md R186).

The idea: where the checks pass, BUILD's outputs are those of the frame `frameOf` around `frameBody`
(`buildResult_natCast`), and that frame is short enough for a 16-bit OLEN, so the success completion says the rest. -/

namespace Sys2Proof.Machine

/-- In a frame with a CRC field the checksum region ends three bytes before the frame does (42_encoder.md R186). -/
theorem slice_frameOf_crc (sentinel : Byte) (body : List Byte) :
    slice (frameOf sentinel body true) 1 ((frameOf sentinel body true).length - 3) = body := by
  have hend : (frameOf sentinel body true).length - 3 = body.length + 1 := by simp [length_frameOf]
  rw [hend, slice_frameOf_body]

/-- The checksum BUILD reports is that of the frame's body, 0 where the frame carries none (42_encoder.md R186). -/
theorem reportedChecksum_frameOf (sentinel : Byte) (body : List Byte) (pid : Nat) :
    let frame := frameOf sentinel body (decide (pid = 1))
    (if (pid : Int) = 1 then zext16 (checksum (slice frame 1 (frame.length - 3))) else 0) =
      if decide (pid = 1) then zext16 (checksum body) else 0 := by
  by_cases hpid : pid = 1
  · subst hpid
    exact congrArg (zext16 ∘ checksum) (slice_frameOf_crc sentinel body)
  · simp [hpid]

/-- What BUILD gives for fields in range and an ASCII item. -/
theorem buildResult_natCast {tid pid adr : Nat} {item : List Byte} (htid : tid ≤ 99) (hpid : pid ≤ 99)
    (hadr : adr ≤ 99) (hitem : item.all isAscii = true) :
    let body := frameBody tid pid adr item
    let c := decide (pid = 1)
    buildResult tid pid adr item =
      .ok ({ ResultBank.zero with
              flags := flagBits false c, resVal := if c then zext16 (checksum body) else 0 }, frameOf 0x02 body c) := by
  have hck : decide ((pid : Int) = 1) = decide (pid = 1) := by simp
  simp only [buildResult, buildRequest_natCast htid hpid hadr hitem, reportedChecksum_frameOf, hck,
    flagsOf_eq_flagBits]

theorem execBuild_of_input {s : State} {item : List Byte} (h : InputIs s item) :
    exec .build s = .next (finish (buildResult s.arg0.toNat s.arg1.toNat s.arg2.toNat item) s) := by
  obtain ⟨hlen, hfits, hbytes⟩ := h
  exact runOnInput_of_input hlen hfits hbytes _

/-- The length of a request frame (30_encoding.md R106). -/
theorem length_requestFrame (tid pid adr : Nat) (item : List Byte) (c : Bool) :
    (frameOf 0x02 (frameBody tid pid adr item) c).length = 8 + item.length + 2 * (if c then 1 else 0) := by
  rw [length_frameOf, length_frameBody]
  omega

/-- Settles O34. -/
theorem buildEmitsRequestFrame : Obligations.BuildEmitsRequestFrame := by
  intro s item hwf hinput htid hpid hadr hitem body c
  have hascii := (all_isAscii_iff item).mpr hitem
  have hrun := execBuild_of_input hinput
  rw [buildResult_natCast htid hpid hadr hascii] at hrun
  obtain ⟨-, hroom, -⟩ := hinput
  have hfits : (frameOf 0x02 body c).length < 65536 := calc
    _ ≤ item.length + 10 := length_of_buildRequest_le (buildRequest_natCast htid hpid hadr hascii)
    _ ≤ s.cfg.obufCap := Nat.add_le_add_right hroom 10
    _ < 65536 := obufCap_lt_of_wf hwf
  have holen (bank : ResultBank) :
      (finish (.ok (bank, frameOf 0x02 body c)) s).bank.olen.toNat = (frameOf 0x02 body c).length := by
    rw [finish_ok_olen, Nat.mod_eq_of_lt hfits]
  refine ⟨_, hrun, rfl, (holen _).trans (length_requestFrame _ _ _ item c), holen _, complete_obufHolds _ _ s, ?_⟩
  rw [holen]
  exact complete_frame _ _ s

end Sys2Proof.Machine
end

section
/-! The frame decoder and the command PARSE: the statements of spec/43_decoder.md.

Two characterisations carry them. `parseResponse_eq_ok_iff`: the decoder succeeds exactly on a frame that passes its
checks and has a variable part. `responseFrame_passes` and `eq_responseFrame_of_parseResponse`: what it accepts is the
frame format of R107 and nothing else. The rest is read off a `responseFrame`, where every field has its fixed place. -/

namespace Sys2Proof.Machine

/-! ## Digits and descriptions (43_decoder.md R206, R213) -/

/-- Settles O25: both sides say that the two bytes are what the encoder gives for 1. -/
theorem digitPidIsOneOnlyForZeroOne : Obligations.DigitPidIsOneOnlyForZeroOne := by
  intro b0 b1 hdigits
  have hone : digitPairEncode 1 = .ok [0x30, 0x31] := rfl
  have henc : digitPairEncode 1 = .ok [b0, b1] ↔ digitPairDecode b0 b1 = 1 :=
    digitPairEncode_eq_ok_iff.trans (and_iff_right hdigits)
  rw [← henc, hone]
  simp [eq_comm]

/-- Settles O36, code by code; a byte outside the table has no row. -/
theorem nakDescriptionFollowsTheTable : Obligations.NakDescriptionFollowsTheTable := by
  refine ⟨fun code => ?_, by decide⟩
  unfold nakDesc
  split_ifs with h1 h2 h3 h4 h5 h6 h7 h8
  case neg =>
    rw [List.lookup_eq_none_iff.mpr]
    · rfl
    · simp only [← BitVec.toNat_inj] at h1 h2 h3 h4 h5 h6 h7 h8
      simp_all
  all_goals subst code; rfl

/-! ## What a success of the decoder says -/

/-- `f` passes every check of `ParseResponse` before the variable part (43_decoder.md R202 to R210). -/
structure FramePasses (p : Params) (f : List Byte) : Prop where
  shaped : FrameShaped f
  digits : p.strictDigits = true → frameDigits f = true
  checksum : frameHasChecksum f = true → 10 ≤ f.length ∧ frameCrcMatches f = true

/-- The decoder succeeds exactly where the checks pass and the sentinel's branch gives a variable part. -/
theorem parseResponse_eq_ok_iff {p : Params} {f : List Byte} {r : Response} :
    parseResponse p f = .ok r ↔
      FramePasses p f ∧ ∃ content, responseContent p f = .ok content ∧ r = decodedFrame f content := by
  constructor
  · intro h
    refine ⟨?_, parseResponse_ok h⟩
    unfold parseResponse at h
    iterate 6
      split at h
      next => cases h
    next hlong hsentinel hterminator hdigits hroom hcrc =>
      exact
        { shaped := ⟨by omega, by tauto, not_not.mp hterminator⟩
          digits := digitCheck_passes_iff.mp hdigits
          checksum := fun hck => ⟨by simpa [hck] using hroom, by simpa [hck] using hcrc⟩ }
  · rintro ⟨⟨⟨hlong, hsentinel, hterminator⟩, hdigits, hchecksum⟩, content, hcontent, rfl⟩
    rw [parseResponse, if_neg (by omega), if_neg (by tauto), if_neg (not_not.mpr hterminator),
      if_neg (digitCheck_passes_iff.mpr hdigits),
      if_neg (by simpa using fun hck => (hchecksum hck).1), if_neg (by simpa using fun hck => (hchecksum hck).2),
      hcontent]
    rfl

/-- The variable part of a NAK frame (43_decoder.md R212). -/
theorem responseContent_of_nak {p : Params} {f : List Byte} {code : Byte} (hnak : byteAt f 0 = NAK)
    (hpayload : framePayload f = [code]) : responseContent p f = .ok (.nak code (nakDesc code)) := by
  simp only [responseContent, hnak, hpayload]
  rw [if_neg (by decide)]

/-- The two variable parts there are, each with its sentinel and its payload (43_decoder.md R211, R212). -/
theorem responseContent_ok_cases {p : Params} {f : List Byte} {content : ResponseContent}
    (hsentinel : byteAt f 0 = ACK ∨ byteAt f 0 = NAK) (h : responseContent p f = .ok content) :
    (byteAt f 0 = ACK ∧ content = .ack (framePayload f) ∧
      (p.ackAsciiStrict = true → (framePayload f).all isAscii = true)) ∨
    (byteAt f 0 = NAK ∧ (framePayload f).length = 1 ∧ ∃ code, content = .nak code (nakDesc code)) := by
  rcases hsentinel with hack | hnak
  · rw [responseContent_of_ack hack] at h
    split at h
    next hascii => cases h; exact .inl ⟨hack, rfl, hascii⟩
    next => cases h
  · have hlength := length_of_responseContent_nak hnak h
    obtain ⟨code, hpayload⟩ := List.length_eq_one_iff.mp hlength
    rw [responseContent_of_nak hnak hpayload] at h
    cases h
    exact .inr ⟨hnak, hlength, code, rfl⟩

/-! ## Frames of the response format (30_encoding.md R107) -/

/-- A response frame: sentinel, six field bytes, a payload, the CRC field exactly when pid = 1, ETX. -/
def responseFrame (sentinel b1 b2 b3 b4 b5 b6 : Byte) (payload : List Byte) : List Byte :=
  frameOf sentinel ([b1, b2, b3, b4, b5, b6] ++ payload) (decide (digitPairDecode b3 b4 = 1))

theorem byteAt_of_getElem? {f : List Byte} {i : Nat} {b : Byte} (h : f[i]? = some b) : byteAt f i = b := by
  simp [byteAt, h]

theorem byteAt_frameOf_last (sentinel : Byte) (body : List Byte) (crc : Bool) :
    byteAt (frameOf sentinel body crc) ((frameOf sentinel body crc).length - 1) = ETX := by
  rw [frameOf, List.length_append, List.length_singleton, Nat.add_sub_cancel]
  exact byteAt_of_getElem? List.getElem?_concat_length

/-- The CRC field stands in the two places before ETX (30_encoding.md R110). -/
theorem crcField_frameOf (sentinel : Byte) (body : List Byte) :
    let f := frameOf sentinel body true
    hexPair (checksum body) = [byteAt f (f.length - 3), byteAt f (f.length - 2)] := by
  intro f
  have hlength : f.length = body.length + 4 := length_frameOf _ _ _
  have htail := getElem?_frameOf_tail sentinel body true
  rw [show f.length - 3 = body.length + 1 + 0 by omega, show f.length - 2 = body.length + 1 + 1 by omega,
    byteAt_of_getElem? (htail 0), byteAt_of_getElem? (htail 1), hexPair]

section
variable (sentinel b1 b2 b3 b4 b5 b6 : Byte) (payload : List Byte)

theorem frameHasChecksum_responseFrame :
    frameHasChecksum (responseFrame sentinel b1 b2 b3 b4 b5 b6 payload) = decide (digitPairDecode b3 b4 = 1) := rfl

theorem frameDigits_responseFrame :
    frameDigits (responseFrame sentinel b1 b2 b3 b4 b5 b6 payload) = [b1, b2, b3, b4, b5, b6].all isDigit := by
  have hfields : frameDigits (responseFrame sentinel b1 b2 b3 b4 b5 b6 payload) =
    (digitsValid b1 b2 && digitsValid b3 b4 && digitsValid b5 b6) := rfl
  simp [hfields, digitsValid, Bool.and_assoc]

theorem length_responseFrame :
    (responseFrame sentinel b1 b2 b3 b4 b5 b6 payload).length =
      payload.length + 8 + 2 * (if digitPairDecode b3 b4 = 1 then 1 else 0) := by
  rw [responseFrame, length_frameOf]
  simp

/-- The decoder's slice ends where the body ends, with a CRC field and without (43_decoder.md R209). -/
theorem framePayload_responseFrame :
    framePayload (responseFrame sentinel b1 b2 b3 b4 b5 b6 payload) = payload := by
  have hlength := length_responseFrame sentinel b1 b2 b3 b4 b5 b6 payload
  have hend : (if frameHasChecksum (responseFrame sentinel b1 b2 b3 b4 b5 b6 payload)
      then (responseFrame sentinel b1 b2 b3 b4 b5 b6 payload).length - 3
      else (responseFrame sentinel b1 b2 b3 b4 b5 b6 payload).length - 1) = payload.length + 7 := by
    rw [frameHasChecksum_responseFrame, hlength]
    by_cases hpid : digitPairDecode b3 b4 = 1 <;> simp [hpid]
  rw [framePayload, hend]
  simp [slice, responseFrame, frameOf]

theorem frameChecksum_responseFrame :
    frameChecksum (responseFrame sentinel b1 b2 b3 b4 b5 b6 payload) =
      if decide (digitPairDecode b3 b4 = 1) then checksum ([b1, b2, b3, b4, b5, b6] ++ payload) else 0 := by
  rw [frameChecksum, frameHasChecksum_responseFrame, responseFrame]
  split
  next hpid => rw [hpid, slice_frameOf_crc]
  next => rfl

theorem frameCrcMatches_responseFrame (hpid : digitPairDecode b3 b4 = 1) :
    frameCrcMatches (responseFrame sentinel b1 b2 b3 b4 b5 b6 payload) = true := by
  refine decide_eq_true ?_
  rw [frameChecksum_responseFrame, responseFrame, decide_eq_true hpid]
  exact crcField_frameOf sentinel _

end

/-- A response frame with digits where they are demanded passes the checks before the variable part. -/
theorem responseFrame_passes {p : Params} {sentinel b1 b2 b3 b4 b5 b6 : Byte} (payload : List Byte)
    (hsentinel : sentinel = ACK ∨ sentinel = NAK)
    (hdigits : p.strictDigits = true → [b1, b2, b3, b4, b5, b6].all isDigit = true) :
    FramePasses p (responseFrame sentinel b1 b2 b3 b4 b5 b6 payload) := by
  have hlength := length_responseFrame sentinel b1 b2 b3 b4 b5 b6 payload
  exact
    { shaped := ⟨by omega, hsentinel, byteAt_frameOf_last _ _ _⟩
      digits := by rwa [frameDigits_responseFrame]
      checksum := fun hck => by
        have hpid : digitPairDecode b3 b4 = 1 := of_decide_eq_true hck
        rw [if_pos hpid] at hlength
        exact ⟨by omega, frameCrcMatches_responseFrame (hpid := hpid) ..⟩ }

/-! ## What the decoder accepts is a response frame -/

/-- Between the fields and ETX of an accepted frame stand the payload and its CRC field (30_encoding.md R107). -/
theorem slice_eq_payload_crcField {p : Params} {f : List Byte} {r : Response} (h : parseResponse p f = .ok r) :
    slice f 7 (f.length - 1) = framePayload f ++ (if frameHasChecksum f then hexPair (frameChecksum f) else []) := by
  obtain ⟨-, content, -, hr⟩ := parseResponse_eq_ok_iff.mp h
  cases hck : frameHasChecksum f with
  | true => exact (acceptedWithChecksum_of_parseResponse h (hr ▸ hck)).slice_eq_payload_crc
  | false => simp [framePayload, hck]

/-- The checksum region is the fields and the payload (43_decoder.md R210). -/
theorem frameChecksum_eq_checksum_payload {f : List Byte} (hck : frameHasChecksum f = true) (hroom : 10 ≤ f.length) :
    frameChecksum f = checksum (slice f 1 7 ++ framePayload f) := by
  rw [frameChecksum, framePayload, if_pos hck, if_pos hck, slice_append f (by omega) (by omega)]

theorem slice_one {f : List Byte} {a : Nat} (h : a < f.length) : slice f a (a + 1) = [byteAt f a] := by
  rw [slice, List.drop_take, Nat.add_sub_cancel_left, List.drop_eq_getElem_cons h, byteAt,
    List.getD_eq_getElem _ _ h]
  rfl

theorem slice_zero_length (f : List Byte) : slice f 0 f.length = f := by simp [slice]

/-- A frame cut at its sentinel, its fields and its last byte. -/
theorem eq_sentinel_fields_rest {f : List Byte} (hlong : 8 ≤ f.length) :
    f = [byteAt f 0] ++ slice f 1 7 ++ slice f 7 (f.length - 1) ++ [byteAt f (f.length - 1)] := by
  have hlast : f.length - 1 + 1 = f.length := by omega
  rw [← slice_one (show 0 < f.length by omega), ← slice_one (show f.length - 1 < f.length by omega), hlast,
    slice_append f (by omega) (by omega), slice_append f (by omega) (by omega),
    slice_append f (by omega) (by omega), slice_zero_length]

theorem slice_fields {f : List Byte} (hlong : 8 ≤ f.length) :
    slice f 1 7 = [byteAt f 1, byteAt f 2, byteAt f 3, byteAt f 4, byteAt f 5, byteAt f 6] := by
  rw [← slice_append f (b := 3) (by decide) (by decide), ← slice_append f (a := 3) (b := 5) (by decide) (by decide),
    slice_two f 1 (by omega), slice_two f 3 (by omega), slice_two f 5 (by omega)]
  rfl

/-- An accepted frame is the response frame of its own fields and payload. -/
theorem eq_responseFrame_of_parseResponse {p : Params} {f : List Byte} {r : Response}
    (h : parseResponse p f = .ok r) :
    f = responseFrame (byteAt f 0) (byteAt f 1) (byteAt f 2) (byteAt f 3) (byteAt f 4) (byteAt f 5) (byteAt f 6)
      (framePayload f) := by
  obtain ⟨⟨⟨hlong, -, hterminator⟩, -, hchecksum⟩, -⟩ := parseResponse_eq_ok_iff.mp h
  have hcrc : (if frameHasChecksum f then hexPair (frameChecksum f) else []) =
      if frameHasChecksum f then hexPair (checksum (slice f 1 7 ++ framePayload f)) else [] :=
    ite_congr rfl (fun hck => by rw [frameChecksum_eq_checksum_payload hck (hchecksum hck).1]) fun _ => rfl
  calc
    f = [byteAt f 0] ++ slice f 1 7 ++ slice f 7 (f.length - 1) ++ [byteAt f (f.length - 1)] :=
      eq_sentinel_fields_rest hlong
    _ = frameOf (byteAt f 0) (slice f 1 7 ++ framePayload f) (frameHasChecksum f) := by
      rw [slice_eq_payload_crcField h, hcrc, hterminator, frameOf]
      simp [ETX]
    _ = _ := by rw [slice_fields hlong]; rfl

/-! ## Decoding a response frame -/

theorem decodedFrame_responseFrame (sentinel b1 b2 b3 b4 b5 b6 : Byte) (payload : List Byte)
    (content : ResponseContent) :
    let pid := digitPairDecode b3 b4
    let fields := [b1, b2, b3, b4, b5, b6]
    decodedFrame (responseFrame sentinel b1 b2 b3 b4 b5 b6 payload) content =
      { tid := digitPairDecode b1 b2, pid := pid, adr := digitPairDecode b5 b6, content := content
        ck := decide (pid = 1), sum := if decide (pid = 1) then checksum (fields ++ payload) else 0
        dig := fields.all isDigit } := by
  intro pid fields
  rw [decodedFrame, frameChecksum_responseFrame, frameDigits_responseFrame, frameHasChecksum_responseFrame]
  rfl

section
variable {p : Params} {b1 b2 b3 b4 b5 b6 : Byte}

theorem parseResponse_ackFrame {payload : List Byte}
    (hdigits : p.strictDigits = true → [b1, b2, b3, b4, b5, b6].all isDigit = true)
    (hascii : p.ackAsciiStrict = true → payload.all isAscii = true) :
    parseResponse p (responseFrame ACK b1 b2 b3 b4 b5 b6 payload) =
      .ok (decodedFrame (responseFrame ACK b1 b2 b3 b4 b5 b6 payload) (.ack payload)) := by
  refine parseResponse_eq_ok_iff.mpr ⟨responseFrame_passes payload (.inl rfl) hdigits, _, ?_, rfl⟩
  rw [responseContent_of_ack rfl, framePayload_responseFrame, if_pos hascii]

theorem parseResponse_nakFrame (code : Byte)
    (hdigits : p.strictDigits = true → [b1, b2, b3, b4, b5, b6].all isDigit = true) :
    parseResponse p (responseFrame NAK b1 b2 b3 b4 b5 b6 [code]) =
      .ok (decodedFrame (responseFrame NAK b1 b2 b3 b4 b5 b6 [code]) (.nak code (nakDesc code))) :=
  parseResponse_eq_ok_iff.mpr ⟨responseFrame_passes [code] (.inr rfl) hdigits, _,
    responseContent_of_nak rfl (framePayload_responseFrame ..), rfl⟩

end

/-- The registers that PARSE writes whatever the sentinel, with OLEN and STATUS (43_decoder.md R216). -/
theorem successBank_responseFrame (sentinel b1 b2 b3 b4 b5 b6 : Byte) (payload out : List Byte)
    (content : ResponseContent) :
    successBank (responseBank (decodedFrame (responseFrame sentinel b1 b2 b3 b4 b5 b6 payload) content)) out =
      parsedBank b1 b2 b3 b4 b5 b6 ([b1, b2, b3, b4, b5, b6] ++ payload) out.length := by
  rw [decodedFrame_responseFrame]
  simp only [successBank, responseBank, parsedBank, flagsOf_eq_flagBits]
  by_cases hpid : digitPairDecode b3 b4 = 1 <;> simp [hpid, statusOk, ResultBank.zero]

theorem parseResult_of_nak {p : Params} {f : List Byte} {r : Response} {code : Byte} {x : NakDescription}
    (h : parseResponse p f = .ok r) (hx : r.content = .nak code x) :
    parseResult p f =
      .ok ({ responseBank r with resKind := 2, resCode := code, resDesc := nakDescIndex x }, [code]) := by
  rw [parseResult, h]
  simp only [hx]

/-! ## PARSE (43_decoder.md R216) -/

/-- What stands in IBUF is short enough for a 16-bit OLEN, and so is all that is cut out of it. -/
theorem length_lt_of_input {s : State} {f : List Byte} (h : InputIs s f) : f.length < 65536 := by
  obtain ⟨hlen, -⟩ := h
  exact hlen ▸ s.ilen.isLt

/-- Settles O38: the input is a `responseFrame` that the decoder accepts with its payload as the value. -/
theorem parseAcceptsAckFrame : Obligations.ParseAcceptsAckFrame := by
  intro s b1 b2 b3 b4 b5 b6 payload fields hinput hdigits hpayload
  replace hinput : InputIs s (responseFrame ACK b1 b2 b3 b4 b5 b6 payload) := hinput
  have hascii (hstrict : s.cfg.ackAsciiStrict = true) := (all_isAscii_iff payload).mpr (hpayload hstrict)
  have hrun := execParse_of_input hinput
  rw [parseResult_of_ack (parseResponse_ackFrame hdigits hascii) rfl] at hrun
  have hfits : payload.length < 65536 := by
    have hframe := length_lt_of_input hinput
    rw [length_responseFrame] at hframe
    omega
  refine ⟨_, hrun, ?_, ?_, complete_obufHolds _ _ s, complete_frame _ _ s⟩
  · exact congrArg (fun bank => { bank with resKind := 1 })
      (successBank_responseFrame ACK b1 b2 b3 b4 b5 b6 payload payload (.ack payload))
  · rw [finish_ok_olen, Nat.mod_eq_of_lt hfits]

/-- Settles O39: the input is a `responseFrame` that the decoder accepts with its one payload byte as the code. -/
theorem parseAcceptsNakFrame : Obligations.ParseAcceptsNakFrame := by
  intro s b1 b2 b3 b4 b5 b6 code fields hinput hdigits
  replace hinput : InputIs s (responseFrame NAK b1 b2 b3 b4 b5 b6 [code]) := hinput
  have hrun := execParse_of_input hinput
  rw [parseResult_of_nak (parseResponse_nakFrame code hdigits) rfl] at hrun
  refine ⟨_, hrun, ?_, complete_obufHolds _ _ s, complete_frame _ _ s⟩
  exact congrArg (fun bank => { bank with resKind := 2, resCode := code, resDesc := nakDescIndex (nakDesc code) })
    (successBank_responseFrame NAK b1 b2 b3 b4 b5 b6 [code] [code] (.nak code (nakDesc code)))

/-- Settles O40: an accepted frame is the response frame of its own bytes, and the sentinel fixes the rest. -/
theorem parseAcceptsOnlyResponseFrames : Obligations.ParseAcceptsOnlyResponseFrames := by
  intro s t f hinput hrun hstatus
  rw [execParse_of_input hinput] at hrun
  cases hrun
  obtain ⟨r, hr, -⟩ := parseResponse_of_finish_ok hstatus
  obtain ⟨⟨hshaped, hdigits, -⟩, content, hcontent, rfl⟩ := parseResponse_eq_ok_iff.mp hr
  have hframe := eq_responseFrame_of_parseResponse hr
  refine ⟨_, _, _, _, _, _, _, _, hframe, ?_, ?_⟩
  · rwa [hframe, frameDigits_responseFrame] at hdigits
  · rcases responseContent_ok_cases hshaped.sentinel hcontent with
      ⟨hack, rfl, hascii⟩ | ⟨hnak, hlength, code, rfl⟩
    · rw [parseResult_of_ack hr rfl]
      exact .inl ⟨hack, rfl, fun hstrict => (all_isAscii_iff _).mp (hascii hstrict)⟩
    · rw [parseResult_of_nak hr rfl]
      exact .inr ⟨hnak, rfl, hlength⟩

/-! ## The round trip (43_decoder.md R215) -/

/-- The two digits of a number are digits and decode to it (40_digit_pair.md R143). -/
theorem exists_twoDigits {n : Nat} (hn : n ≤ 99) : ∃ b0 b1 : Byte, twoDigits n = [b0, b1] ∧
    digitPairDecode b0 b1 = n ∧ isDigit b0 = true ∧ isDigit b1 = true := by
  obtain ⟨b0, b1, henc⟩ := exists_digitPairEncode_natCast hn
  obtain ⟨hdigits, hdecode⟩ := digitPairEncode_eq_ok_iff.mp henc
  rw [digitPairEncode_natCast hn] at henc
  cases henc
  exact ⟨_, _, rfl, hdecode, by simpa [digitsValid] using hdigits⟩

/-- The fields of a frame body are six digits, which decode to the three numbers. -/
theorem exists_fields_of_frameBody {tid pid adr : Nat} (htid : tid ≤ 99) (hpid : pid ≤ 99) (hadr : adr ≤ 99) :
    ∃ b1 b2 b3 b4 b5 b6 : Byte, (∀ tail, frameBody tid pid adr tail = [b1, b2, b3, b4, b5, b6] ++ tail) ∧
      [b1, b2, b3, b4, b5, b6].all isDigit = true ∧ digitPairDecode b1 b2 = tid ∧ digitPairDecode b3 b4 = pid ∧
      digitPairDecode b5 b6 = adr := by
  obtain ⟨b1, b2, h12, htid', h1, h2⟩ := exists_twoDigits htid
  obtain ⟨b3, b4, h34, hpid', h3, h4⟩ := exists_twoDigits hpid
  obtain ⟨b5, b6, h56, hadr', h5, h6⟩ := exists_twoDigits hadr
  exact ⟨b1, b2, b3, b4, b5, b6, fun tail => by rw [frameBody, h12, h34, h56]; rfl,
    by simp [h1, h2, h3, h4, h5, h6], htid', hpid', hadr'⟩

theorem decide_natCast_eq_one (n : Nat) : decide ((n : Int) = 1) = decide (n = 1) := by simp

/-- Settles O41: the frame is a response frame around the digits of the fields. -/
theorem ackFrameRoundTrip : Obligations.AckFrameRoundTrip := by
  intro p tid pid adr payload htid hpid hadr hpayload
  obtain ⟨b1, b2, b3, b4, b5, b6, hbody, hdigits, hdtid, hdpid, hdadr⟩ := exists_fields_of_frameBody htid hpid hadr
  have hascii := (all_isAscii_iff payload).mpr hpayload
  have hframe : frameOf 0x06 (frameBody tid pid adr payload) (decide (pid = 1)) =
      responseFrame ACK b1 b2 b3 b4 b5 b6 payload := by
    rw [responseFrame, hbody, hdpid, decide_natCast_eq_one]
    rfl
  rw [hframe]
  refine ⟨_, parseResponse_ackFrame (fun _ => hdigits) fun _ => hascii, ?_⟩
  rw [decodedFrame_responseFrame, hdpid, decide_natCast_eq_one]
  exact ⟨hdtid, rfl, hdadr, rfl, rfl, hdigits⟩

theorem s16_eq_zext16 {n : Int} {b : Byte} (h : n = b.toNat) : s16 n = zext16 b := h ▸ s16_byte b

/-- With another sentinel at index 0 and the bytes of a frame behind it, IBUF holds the frame of that sentinel. -/
theorem inputIs_frameOf_of_sentinel {u : State} {old sentinel : Byte} {body : List Byte} {crc : Bool}
    (hilen : u.ilen.toNat = (frameOf old body crc).length) (hfits : u.ilen.toNat ≤ u.cfg.maxLen)
    (hfirst : ibufByte u 0 = some sentinel)
    (hrest : ∀ i, 0 < i → i < (frameOf old body crc).length → ibufByte u i = (frameOf old body crc)[i]?) :
    InputIs u (frameOf sentinel body crc) := by
  have hlength : (frameOf sentinel body crc).length = (frameOf old body crc).length := by
    rw [length_frameOf, length_frameOf]
  refine ⟨by rw [hilen, hlength], by rw [hlength, ← hilen]; exact hfits, fun i hi => ?_⟩
  cases i with
  | zero => exact hfirst
  | succ i => exact hrest (i + 1) i.succ_pos (hlength ▸ hi)

/-- Settles O42: the frame BUILD leaves (O34), its sentinel exchanged, is an ACK frame, and PARSE answers it (O38). -/
theorem builtFrameParsesBack : Obligations.BuiltFrameParsesBack := by
  intro s u item hwf hinput htid hpid hadr hitem
  obtain ⟨t, hbuild, hbank, -, hlength, hobuf, -⟩ := buildEmitsRequestFrame s item hwf hinput htid hpid hadr hitem
  refine ⟨t, hbuild, fun hilen hfits hfirst hrest => ?_⟩
  obtain ⟨b1, b2, b3, b4, b5, b6, hbody, hdigits, hdtid, hdpid, hdadr⟩ := exists_fields_of_frameBody htid hpid hadr
  have hc : decide (digitPairDecode b3 b4 = 1) = decide (s.arg1.toNat = 1) := by
    rw [hdpid, decide_natCast_eq_one]
  rw [hbody, ← hc] at hbank hlength hobuf
  have huinput : InputIs u (responseFrame ACK b1 b2 b3 b4 b5 b6 item) :=
    inputIs_frameOf_of_sentinel (hilen ▸ hlength) hfits hfirst fun i hpos hi =>
      (hrest i hpos (hlength ▸ hi)).trans (hobuf i hi)
  obtain ⟨v, hparse, hvbank, hvolen, hvobuf, -⟩ :=
    parseAcceptsAckFrame u b1 b2 b3 b4 b5 b6 item huinput (fun _ => hdigits) fun _ => hitem
  exact ⟨v, hparse, congrArg ResultBank.status hvbank, congrArg ResultBank.resKind hvbank,
    (congrArg ResultBank.resTid hvbank).trans (s16_eq_zext16 hdtid),
    (congrArg ResultBank.resPid hvbank).trans (s16_eq_zext16 hdpid),
    (congrArg ResultBank.resAdr hvbank).trans (s16_eq_zext16 hdadr),
    (congrArg ResultBank.resVal hvbank).trans (congrArg ResultBank.resVal hbank).symm, hvolen, hvobuf⟩

end Sys2Proof.Machine
end

section
/-! The error statuses: the statements of spec/60_exceptions.md.

`statusOf` is the STATUS of a result, whatever it carries beside. A command leaves the STATUS of its ending
(`finish_status`), and an ending whose STATUS is not OK is an error. The order of PARSE's checks is then one
comparison, check by check, of the decoder's chain of conditions with the spec's list
(`statusOf_check_eq_firstFailure`). -/

namespace Sys2Proof.Machine

/-! ## The status of a result (60_exceptions.md R240, R241) -/

/-- The STATUS that a result leaves: OK, or the code of its error (60_exceptions.md R240). -/
def statusOf {α : Type} : Except ErrorCode α → Byte
  | .ok _ => statusOk
  | .error e => errorStatus e

theorem finish_status (r : Ending) (s : State) : (finish r s).bank.status = statusOf r := by cases r <;> rfl

theorem exists_error_of_statusOf_ne_zero {α : Type} {x : Except ErrorCode α} (h : statusOf x ≠ 0x00) :
    ∃ e, x = .error e := by
  cases x with
  | ok a => exact absurd rfl h
  | error e => exact ⟨e, rfl⟩

/-- Settles O47: an ending with an error status is an error, and `raiseError` writes the result bank alone. -/
theorem errorLeavesOnlyStatus : Obligations.ErrorLeavesOnlyStatus := by
  intro d s t hrun hstatus
  obtain ⟨r, -, rfl⟩ := runCommandWord_eq_next_iff.mp hrun
  rw [finish_status] at hstatus
  obtain ⟨e, rfl⟩ := exists_error_of_statusOf_ne_zero hstatus
  exact raiseError_eq e s

theorem errorCompletion_of_statusOf_ne_zero {r : Ending} (h : statusOf r ≠ 0x00) (s : State) :
    ErrorCompletion s (finish r s) (statusOf r) := by
  obtain ⟨e, rfl⟩ := exists_error_of_statusOf_ne_zero h
  exact raiseError_completion e s

/-! ## The order of BUILD's checks (60_exceptions.md R247) -/

/-- A field in range is passed over, and the first one out of range is reported, whichever it is. -/
theorem encodeFields_outOfRange {tid pid adr : Nat} (h : 99 < tid ∨ 99 < pid ∨ 99 < adr) :
    encodeFields tid pid adr = .error .invalidFieldRange := by
  have hout {n : Nat} (hn : ¬ n ≤ 99) : digitPairEncode n = .error .invalidFieldRange :=
    digitPairEncode_outOfRange (.inr (by omega))
  by_cases htid : tid ≤ 99
  case neg => simp only [encodeFields, hout htid]
  by_cases hpid : pid ≤ 99
  case neg => simp only [encodeFields, digitPairEncode_natCast htid, hout hpid]
  have hadr : ¬ adr ≤ 99 := by omega
  simp only [encodeFields, digitPairEncode_natCast htid, digitPairEncode_natCast hpid, hout hadr]

theorem buildRequest_outOfRange {tid pid adr : Nat} (item : List Byte) (h : 99 < tid ∨ 99 < pid ∨ 99 < adr) :
    buildRequest tid pid adr item = .error .invalidFieldRange := by
  simp only [buildRequest, encodeFields_outOfRange h]

theorem buildRequest_notAscii {tid pid adr : Nat} {item : List Byte} (htid : tid ≤ 99) (hpid : pid ≤ 99)
    (hadr : adr ≤ 99) (hitem : ¬ item.all isAscii = true) : buildRequest tid pid adr item = .error .encodingError := by
  simp only [buildRequest, encodeFields_natCast htid hpid hadr]
  exact if_neg hitem

theorem execBuild_errorCompletion {s : State} {item : List Byte} {e : ErrorCode} (hinput : InputIs s item)
    (h : buildRequest s.arg0.toNat s.arg1.toNat s.arg2.toNat item = .error e) :
    ∃ t, exec .build s = .next t ∧ ErrorCompletion s t (errorStatus e) := by
  refine ⟨_, execBuild_of_input hinput, ?_⟩
  rw [buildResult, h]
  exact raiseError_completion e s

theorem not_all_isAscii_iff (bs : List Byte) : ¬ bs.all isAscii = true ↔ ∃ b ∈ bs, 0x7F < b.toNat := by
  simp only [all_isAscii_iff, not_forall, not_le, exists_prop]

/-- Settles O35, check by check. -/
theorem buildReportsFirstFailingCheck : Obligations.BuildReportsFirstFailingCheck := by
  refine fun s => ⟨fun hlong => ?_, fun item hinput => ⟨fun hfield => ?_, fun htid hpid hadr hitem => ?_⟩⟩
  · exact ⟨_, runOnInput_badLength hlong _, raiseError_completion .badLength s⟩
  · exact execBuild_errorCompletion hinput (buildRequest_outOfRange item hfield)
  · exact execBuild_errorCompletion hinput
      (buildRequest_notAscii htid hpid hadr ((not_all_isAscii_iff item).mpr hitem))

/-! ## The order of PARSE's checks (60_exceptions.md R248) -/

/-- One check: where the decoder's condition is the list's, and the rest agrees behind it, the whole agrees. -/
theorem statusOf_check_eq_firstFailure {α : Type} {c : Prop} [Decidable c] {e : ErrorCode} {x : Except ErrorCode α}
    {fails : Bool} {rest : List (Bool × Byte)} (hcheck : fails = true ↔ c)
    (hrest : ¬ c → statusOf x = firstFailure rest) :
    statusOf (if c then .error e else x) = firstFailure ((fails, errorStatus e) :: rest) := by
  rw [firstFailure]
  by_cases hc : c
  · rw [if_pos hc, if_pos (hcheck.mpr hc)]
    rfl
  · rw [if_neg hc, if_neg (mt hcheck.mp hc), hrest hc]

/-- The list's digit check on the six field bytes is the decoder's on the three pairs (43_decoder.md R206). -/
theorem digitCheck_iff {p : Params} {f : List Byte} (hlong : 8 ≤ f.length) :
    (p.strictDigits && (slice f 1 7).any fun b => !isDigit b) = true ↔ (!frameDigits f && p.strictDigits) = true := by
  have hdigits : frameDigits f = (slice f 1 7).all isDigit := by
    simp [slice_fields hlong, frameDigits, digitsValid, Bool.and_assoc]
  rw [← List.not_all_eq_any_not, hdigits, Bool.and_comm]

/-- The list's comparison with the CRC field as a slice is the decoder's byte by byte (43_decoder.md R210). -/
theorem crcCheck_iff {f : List Byte} (hroom : frameHasChecksum f = true → 10 ≤ f.length) :
    (frameHasChecksum f &&
        decide (hexPair (checksum (slice f 1 (f.length - 3))) ≠ slice f (f.length - 3) (f.length - 1))) = true ↔
      (frameHasChecksum f && !frameCrcMatches f) = true := by
  cases hck : frameHasChecksum f with
  | false => rfl
  | true =>
    have hlong := hroom hck
    have hcrc := slice_two f (f.length - 3) (by omega)
    rw [show f.length - 3 + 2 = f.length - 1 by omega, show f.length - 3 + 1 = f.length - 2 by omega] at hcrc
    simp [frameCrcMatches, frameChecksum, hck, hcrc]

/-- The last two checks of the list: one on the payload of an Ack, one on that of a Nak (43_decoder.md R211, R212). -/
def payloadChecks (p : Params) (f : List Byte) : List (Bool × Byte) :=
  [(decide (byteAt f 0 = 0x06) && p.ackAsciiStrict && (framePayload f).any fun b => decide (0x7F < b.toNat), 0x0A),
   (decide (byteAt f 0 = 0x15) && decide ((framePayload f).length ≠ 1), 0x09)]

theorem any_above_ascii_iff (bs : List Byte) :
    (bs.any fun b => decide (0x7F < b.toNat)) = true ↔ ¬ bs.all isAscii = true := by
  simp only [not_all_isAscii_iff, List.any_eq_true, decide_eq_true_eq]

theorem firstFailure_payloadChecks_of_ack {f : List Byte} (hack : byteAt f 0 = ACK) (p : Params) :
    firstFailure (payloadChecks p f) =
      if p.ackAsciiStrict = true → (framePayload f).all isAscii = true then 0x00 else 0x0A := by
  simp only [payloadChecks, firstFailure, hack, Bool.and_eq_true, any_above_ascii_iff]
  cases p.ackAsciiStrict <;> cases (framePayload f).all isAscii <;> rfl

theorem firstFailure_payloadChecks_of_nak {f : List Byte} (hnak : byteAt f 0 = NAK) (p : Params) :
    firstFailure (payloadChecks p f) = if (framePayload f).length = 1 then 0x00 else 0x09 := by
  simp only [payloadChecks, firstFailure, hnak]
  by_cases hlength : (framePayload f).length = 1 <;> simp [hlength, NAK]

/-- The variable part fails where the check of its sentinel does (43_decoder.md R211, R212). -/
theorem statusOf_responseContent {p : Params} {f : List Byte} (hsentinel : byteAt f 0 = ACK ∨ byteAt f 0 = NAK) :
    statusOf (responseContent p f) = firstFailure (payloadChecks p f) := by
  rcases hsentinel with hack | hnak
  · rw [responseContent_of_ack hack, firstFailure_payloadChecks_of_ack hack]
    split <;> rfl
  · rw [firstFailure_payloadChecks_of_nak hnak]
    split
    next hlength =>
      obtain ⟨code, hpayload⟩ := List.length_eq_one_iff.mp hlength
      rw [responseContent_of_nak hnak hpayload]
      rfl
    next hlength =>
      rw [responseContent_nak_badPayload hnak hlength]
      rfl

/-- The decoder's chain of conditions is the spec's list, each check behind those before it. -/
theorem statusOf_parseResponse (p : Params) (f : List Byte) :
    statusOf (parseResponse p f) = firstFailure (responseChecks p f) := by
  unfold parseResponse
  refine statusOf_check_eq_firstFailure decide_eq_true_iff fun hlong => ?_
  refine statusOf_check_eq_firstFailure decide_eq_true_iff fun hsentinel => ?_
  refine statusOf_check_eq_firstFailure decide_eq_true_iff fun _ => ?_
  refine statusOf_check_eq_firstFailure (digitCheck_iff (not_lt.mp hlong)) fun _ => ?_
  refine statusOf_check_eq_firstFailure Iff.rfl fun hroom => ?_
  refine statusOf_check_eq_firstFailure (crcCheck_iff (by simpa using hroom)) fun _ => ?_
  calc
    _ = statusOf (responseContent p f) := by cases responseContent p f <;> rfl
    _ = firstFailure (payloadChecks p f) := statusOf_responseContent (by tauto)

theorem statusOf_parseResult (p : Params) (f : List Byte) :
    statusOf (parseResult p f) = statusOf (parseResponse p f) := by
  rcases parseResult_cases p f with ⟨e, hr, hresult⟩ | ⟨r, v, hr, -, hresult⟩ | ⟨r, c, x, hr, -, hresult⟩ <;>
    rw [hr, hresult] <;> rfl

/-- Settles O37: PARSE leaves the decoder's status, and that is the list's first failure. -/
theorem parseReportsFirstFailingCheck : Obligations.ParseReportsFirstFailingCheck := by
  refine fun s => ⟨fun hlong => ?_, fun f hinput => ?_⟩
  · exact ⟨_, runOnInput_badLength hlong _, raiseError_completion .badLength s⟩
  · have hstatus : statusOf (parseResult s.cfg f) = firstFailure (responseChecks s.cfg f) :=
      (statusOf_parseResult s.cfg f).trans (statusOf_parseResponse s.cfg f)
    refine ⟨_, execParse_of_input hinput, ?_⟩
    rw [finish_status, ← hstatus]
    exact ⟨rfl, fun herror => errorCompletion_of_statusOf_ne_zero herror s⟩

end Sys2Proof.Machine
end

section
/-! Reset and what is undefined after it: the statements of spec/70_reset_and_hazards.md.

A command has no ending exactly where the boot duty `InputReady` (R274) is not done and it reads the input sequence
(`commandEnding_eq_none_iff`). That one equivalence says both when a step faults (R272) and that a command with a
ready input completes. -/

namespace Sys2Proof.Machine

/-! ## The reset state (R270, R271, R273) -/

theorem ibufByte_reset (i : Nat) : ibufByte State.reset i = none := Memory.read_nil i

theorem obufByte_reset (i : Nat) : obufByte State.reset i = none := Memory.read_nil i

theorem bank_reset : State.reset.bank = ResultBank.zero := rfl

/-- Settles O18. -/
theorem resetZeroesRegistersAndEmptiesBuffers : Obligations.ResetZeroesRegistersAndEmptiesBuffers := by
  unfold Obligations.ResetZeroesRegistersAndEmptiesBuffers
  rw [bank_reset]
  exact ⟨rfl, rfl, rfl, rfl, rfl, rfl, rfl, rfl, rfl, rfl, rfl, rfl, rfl, rfl,
    fun i => ⟨ibufByte_reset i, obufByte_reset i⟩⟩

/-- Settles O19. -/
theorem externalResetRestoresResetState : Obligations.ExternalResetRestoresResetState := by
  intro s rest hport
  calc
    step s = .next (applyReset (s.setPort rest)) := step_event hport
    _ = .next { State.reset with cfg := s.cfg, port := rest, reads := s.reads, draws := s.draws } := rfl

/-- Whatever the open parameters are, P_MAXLEN is in range: it is 10 and a `Fin 65516` (00_scope.md R7). -/
theorem params_wf : Config.params.wf = true := by
  have hmax : Config.params.maxLen = Config.maxLenAboveMin.val + 10 := rfl
  have hlt := Config.maxLenAboveMin.isLt
  simp only [Params.wf, Bool.and_eq_true, decide_eq_true_eq]
  omega

/-- Settles O20: OLEN is 0 and the buffers are empty, so what is left is the parameter range. -/
theorem invariantHoldsAtReset : Obligations.InvariantHoldsAtReset :=
  ⟨params_wf, Memory.wf_nil, Memory.within_nil _, Memory.wf_nil, Memory.within_nil _, resultBankSound_zero,
    Nat.zero_le _, nofun⟩

/-! ## When a command has no ending (R272, R274) -/

/-- The first `n` bytes of a buffer read as a sequence unless one of them holds no value. -/
theorem Memory.readSeq_zero_eq_none_iff (m : Memory) (n : Nat) :
    Memory.readSeq m 0 n = none ↔ ¬ ∀ i, i < n → (Memory.read m i).isSome = true := by
  rw [Memory.readSeq_eq_none_iff]
  simp

theorem not_inputReady_iff {s : State} :
    ¬ InputReady s ↔ s.ilen.toNat ≤ s.cfg.maxLen ∧ ∃ i, i < s.ilen.toNat ∧ ibufByte s i = none := by
  simp [InputReady]

theorem inputEnding_eq_none_iff {s : State} (result : List Byte → Ending) :
    inputEnding s result = none ↔ ¬ InputReady s := by
  unfold inputEnding
  split
  next hlong => exact iff_of_false nofun (not_not_intro (.inl hlong))
  next hfits =>
    rw [Option.map_eq_none_iff, inputSequence, Memory.readSeq_zero_eq_none_iff]
    exact not_congr (or_iff_right hfits).symm

/-- Of the five commands CKSUM, BUILD and PARSE read the input sequence; DPENC and DPDEC always end. -/
theorem execEnding_eq_none_iff {i : Instr} {s : State} :
    execEnding s i = none ↔ (i = .cksum ∨ i = .build ∨ i = .parse) ∧ ¬ InputReady s := by
  cases i with
  | dpenc | dpdec => exact iff_of_false nofun (by simp)
  | cksum | build | parse => exact (inputEnding_eq_none_iff _).trans (by simp)

theorem decode_eq_ok_iff_toNat {d : Word} {i : Instr} :
    decode d = .ok i ↔ d.toNat % 256 = (opcodeOf i).toNat := by
  rw [decode_eq_ok_iff, ← opcodeField_toNat, BitVec.toNat_inj]

/-- A command word has no ending exactly where it is one of the three that read an input that is not ready. -/
theorem commandEnding_eq_none_iff {d : Word} {s : State} :
    commandEnding d s = none ↔
      (d.toNat % 256 = 0x03 ∨ d.toNat % 256 = 0x04 ∨ d.toNat % 256 = 0x05) ∧ ¬ InputReady s := by
  have hopcode : (d.toNat % 256 = 0x03 ∨ d.toNat % 256 = 0x04 ∨ d.toNat % 256 = 0x05) ↔
      decode d = .ok .cksum ∨ decode d = .ok .build ∨ decode d = .ok .parse := by
    simp only [decode_eq_ok_iff_toNat]
    rfl
  rw [hopcode]
  cases hdecode : decode d with
  | ok i => rw [commandEnding_of_decode hdecode, execEnding_eq_none_iff]; simp
  | error e => rw [commandEnding_of_illegal hdecode]; simp

/-- Settles O48: with a ready input every command word has an ending. -/
theorem readyInputCompletesEveryCommand : Obligations.ReadyInputCompletesEveryCommand := by
  intro d s hready
  have hending : commandEnding d s ≠ none := fun hnone => (commandEnding_eq_none_iff.mp hnone).2 hready
  obtain ⟨r, hr⟩ := Option.ne_none_iff_exists'.mp hending
  exact ⟨finish r s, runCommandWord_eq_next_iff.mpr ⟨r, hr, rfl⟩⟩

/-! ## A byte with no value (R272) -/

/-- A host read of a valueless byte inside the buffer returns a drawn byte (R272, U7). -/
theorem readBufferByte_of_none {m : Memory} {cap i : Nat} (hi : i < cap) (hnone : Memory.read m i = none) (s : State) :
    readBufferByte m cap i s =
      { s with reads := s.reads ++ [.byte (Config.freeByte s.draws)], draws := s.draws + 1 } := by
  unfold readBufferByte
  rw [if_pos hi, hnone]
  rfl

/-- The one step that can fault is a command write. -/
theorem step_eq_fault_iff {s : State} {f : Fault} :
    step s = .fault f ↔
      ∃ d rest, NextIs s (.wrreg 0x00 d) rest ∧ runCommandWord d (s.setPort rest) = .fault f := by
  constructor
  · intro hfault
    rcases step_cases s with ⟨-, h⟩ | ⟨a, rest, -, h⟩ | ⟨d, rest, hnext, h⟩ | ⟨a, d, rest, -, -, h⟩ |
      ⟨i, rest, -, h⟩ | ⟨i, b, rest, -, h⟩ | ⟨i, rest, -, h⟩ | ⟨rest, -, h⟩ <;> rw [h] at hfault
    case inr.inr.inl => exact ⟨d, rest, hnext, hfault⟩
    all_goals cases hfault
  · rintro ⟨d, rest, hnext, hfault⟩
    exact (step_commandWrite hnext).trans hfault

/-- Taking the command's event from the port leaves its input as it was. -/
theorem runCommandWord_setPort_eq_fault_iff {d : Word} {s : State} {rest : List HostEvent} {f : Fault} :
    runCommandWord d (s.setPort rest) = .fault f ↔
      (d.toNat % 256 = 0x03 ∨ d.toNat % 256 = 0x04 ∨ d.toNat % 256 = 0x05) ∧
      s.ilen.toNat ≤ s.cfg.maxLen ∧ ∃ i, i < s.ilen.toNat ∧ ibufByte s i = none := by
  rw [runCommandWord_eq_fault_iff, commandEnding_eq_none_iff, not_inputReady_iff]
  rfl

/-- Settles O13: a read of a valueless byte draws one, and the endings missing are the faults. -/
theorem valuelessByteIsDrawnByReadsAndFaultsCommands : Obligations.ValuelessByteIsDrawnByReadsAndFaultsCommands := by
  constructor
  · rintro s i rest (⟨hnext, hi, hnone⟩ | ⟨hnext, hi, hnone⟩)
    · exact ⟨_, _, (step_inputRead hnext).trans (congrArg _ (readBufferByte_of_none hi hnone _)), rfl⟩
    · exact ⟨_, _, (step_outputRead hnext).trans (congrArg _ (readBufferByte_of_none hi hnone _)), rfl⟩
  · intro s f
    rw [step_eq_fault_iff]
    constructor
    · rintro ⟨d, rest, hnext, hfault⟩
      obtain ⟨hopcode, hfits, i, hi, hnone⟩ := runCommandWord_setPort_eq_fault_iff.mp hfault
      exact ⟨rfl, d, rest, i, hnext, hopcode, hfits, hi, hnone⟩
    · rintro ⟨-, d, rest, i, hnext, hopcode, hfits, hi, hnone⟩
      exact ⟨d, rest, hnext, runCommandWord_setPort_eq_fault_iff.mpr ⟨hopcode, hfits, i, hi, hnone⟩⟩

/-! ## How long a result lives (R276) -/

/-- No transaction but a command write changes the result bank or OBUF. -/
theorem transact_bank_obuf {x : HostTransaction} {s t : State} (hx : ∀ d, x ≠ .wrreg 0x00 d)
    (h : transact x s = .next t) : t.bank = s.bank ∧ t.obuf = s.obuf := by
  cases x with
  | rdreg a => cases h; exact ⟨rfl, rfl⟩
  | wrreg a d =>
    have ha : a ≠ 0x00 := fun ha => hx d (ha ▸ rfl)
    cases (if_neg ha).symm.trans h
    obtain ⟨-, -, hobuf, hbank⟩ := sameBlock_writeRegister a d s
    exact ⟨hbank, hobuf⟩
  | rdib i | rdob i =>
    cases h
    obtain ⟨-, -, hobuf, hbank⟩ := sameBlock_readBufferByte _ _ i.toNat s
    exact ⟨hbank, hobuf⟩
  | wrib i b =>
    cases h
    rw [writeInputByte_eq]
    exact ⟨rfl, rfl⟩

/-- Settles O49. -/
theorem resultLivesUntilNextCommandOrReset : Obligations.ResultLivesUntilNextCommandOrReset := by
  intro s t e rest hport hreset hcommand hstep
  rw [step_event hport] at hstep
  cases e with
  | reset => exact absurd rfl hreset
  | transaction x => exact transact_bank_obuf (s := s.setPort rest) (fun d hx => hcommand d (hx ▸ rfl)) hstep

/-! ## What a run shows (R278) -/

/-- The invariant holds after any number of steps, by O52 for each of them. -/
theorem stateInv_steps {k : Nat} {s t : State} (hs : StateInv s) (h : Steps k s t) : StateInv t := by
  induction k generalizing s with
  | zero => cases h; exact hs
  | succ k ih =>
    obtain ⟨u, hstep, hrest⟩ := h
    exact ih (stepKeepsInvariant s u hs hstep) hrest

/-- Under the invariant a run's output is `OBUF[0..OLEN)`, byte by byte. -/
theorem observe_out_of_stateInv {s : State} (hs : StateInv s) :
    ∃ out : List Byte, (observe s).out = some out ∧ out.length = s.bank.olen.toNat ∧ ObufHolds s out := by
  obtain ⟨-, -, -, -, -, -, -, hvalues⟩ := hs
  have hreads : Memory.readSeq s.obuf 0 s.bank.olen.toNat ≠ none := fun hnone =>
    (Memory.readSeq_zero_eq_none_iff _ _).mp hnone hvalues
  obtain ⟨out, hout⟩ := Option.ne_none_iff_exists'.mp hreads
  obtain ⟨hlength, hbytes⟩ := (Memory.readSeq_eq_some_iff _ _ _ _).mp hout
  exact ⟨out, hout, hlength, fun i hi => by simpa [obufByte] using hbytes i (hlength ▸ hi)⟩

/-- Settles O53. -/
theorem observedOutputIsDefined : Obligations.ObservedOutputIsDefined :=
  fun _ _ _ hs hsteps => observe_out_of_stateInv (stateInv_steps hs hsteps)

end Sys2Proof.Machine
end
